-- ==== Sys2Proof/Word.lean ====
section
/-! DEFINITION. The bit-vector types of the core: its bytes, words and the operand
fields of an instruction word (spec 10_state.md R21, R23; 30_encoding.md R70). -/

namespace Sys2Proof

/-- An 8-bit value: a general register, a timer, a memory byte (R21, R33, R35). -/
abbrev Byte := BitVec 8

/-- A 16-bit value: `pc`, `i`, a stack entry, an instruction word (R23, R31, R32, R70). -/
abbrev Word := BitVec 16

/-- A 4-bit field: a register index X or Y, or the constant N (R70). -/
abbrev Nibble := BitVec 4

/-- The 12-bit address field NNN (R70). -/
abbrev Addr := BitVec 12

end Sys2Proof
end

