-- ==== Sys2Proof/Config.lean ====
section
/-! DEFINITION. What is fixed for a machine: the compatibility mode's values (spec
00_scope.md R4), the parameters a model takes as an argument (R11) with the
constraints they are held to (R12), and the free random byte (42_alu.md R164). -/

namespace Sys2Proof

/-- The compatibility mode (R4, R28). -/
inductive Compat where
  | original
  | new
  deriving DecidableEq, Repr

/-- `P_DRAW_EDGE`: what a sprite pixel past the right or bottom edge does (R192). -/
inductive DrawEdge where
  | fault
  | clip
  | wrap
  deriving DecidableEq, Repr

/-- `P_B_DECODE`: how family B selects BNNN or BXNN (R78). -/
inductive BDecode where
  | byXNibble
  | byMode
  deriving DecidableEq, Repr

/-- `P_F0_DECODE`: the sub-field family 0 dispatches on (R76). -/
inductive F0Decode where
  | unsettled
  | exact
  | lastByte
  | lastNibble
  deriving DecidableEq, Repr

/-- `P_8XY7`: the meaning of 8XY7 (R77, R162). -/
inductive Choice8xy7 where
  | unsettled
  | unknown
  | subN
  deriving DecidableEq, Repr

/-- `P_FX1E`: the meaning of FX1E (R79, R213). -/
inductive ChoiceFx1e where
  | unsettled
  | unknown
  | addI
  deriving DecidableEq, Repr

/-- The parameters of R11. -/
structure Params where
  /-- `P_MEM_SIZE` -/
  memSize : Nat
  /-- `P_WIDTH` -/
  width : Nat
  /-- `P_HEIGHT` -/
  height : Nat
  /-- `P_ROM_BASE` -/
  romBase : Word
  /-- `P_STACK_LIMIT`; `none` is no cap -/
  stackLimit : Option Nat
  /-- `P_DRAW_EDGE` -/
  drawEdge : DrawEdge
  /-- `P_B_DECODE` -/
  bDecode : BDecode
  /-- `P_F0_DECODE` -/
  f0Decode : F0Decode
  /-- `P_8XY7` -/
  op8xy7 : Choice8xy7
  /-- `P_FX1E` -/
  opFx1e : ChoiceFx1e
  deriving DecidableEq, Repr

/-- The defaults of R11. -/
def Params.default : Params where
  memSize := 4096
  width := 64
  height := 32
  romBase := 0x200#16
  stackLimit := none
  drawEdge := .fault
  bDecode := .byXNibble
  f0Decode := .unsettled
  op8xy7 := .unsettled
  opFx1e := .unsettled

/-- The constraints of R12, and R132's "a positive integer k" for a stack limit. -/
abbrev Params.wf (p : Params) : Prop :=
  2 ≤ p.memSize ∧ p.romBase.toNat + 1 < p.memSize ∧ 1 ≤ p.width ∧ 1 ≤ p.height ∧
    p.memSize ≤ 0x10000 ∧ p.stackLimit ≠ some 0

/-- FREE VALUE (log entry 4). The random byte of the k-th draw for which the host has put
no byte on the port: R164 "r is a free draw: a model must admit every 8-bit value". -/
opaque Config.randByte : Nat → Byte

end Sys2Proof
end

