-- ==== Sys2Proof/Syntax.lean ====
section
/-! DEFINITION. The instructions, one constructor per row of spec/opcode_table.json, with
the operand fields of 30_encoding.md R70 to R74 as arguments. -/

namespace Sys2Proof

/-- The operations of R85, the unsettled rows and the unknown catch-all (R83). -/
inductive Instr where
  /-- 00E0 CLS (R190) -/
  | cls
  /-- 00EE RET (R120) -/
  | ret
  /-- 1NNN JP (R121) -/
  | jp (nnn : Addr)
  /-- 2NNN CALL (R122) -/
  | call (nnn : Addr)
  /-- 3XNN SE_VX_NN (R123) -/
  | seVxNn (x : Nibble) (nn : Byte)
  /-- 4XNN SNE_VX_NN (R124) -/
  | sneVxNn (x : Nibble) (nn : Byte)
  /-- 5XY_ SE_VX_VY (R125); the last nibble is ignored (R80) -/
  | seVxVy (x y : Nibble)
  /-- 6XNN LD_VX_NN (R151) -/
  | ldVxNn (x : Nibble) (nn : Byte)
  /-- 7XNN ADD_VX_NN (R152) -/
  | addVxNn (x : Nibble) (nn : Byte)
  /-- 8XY0 LD_VX_VY (R153) -/
  | ldVxVy (x y : Nibble)
  /-- 8XY1 OR (R154) -/
  | orVxVy (x y : Nibble)
  /-- 8XY2 AND (R155) -/
  | andVxVy (x y : Nibble)
  /-- 8XY3 XOR (R156) -/
  | xorVxVy (x y : Nibble)
  /-- 8XY4 ADD_VX_VY (R157) -/
  | addVxVy (x y : Nibble)
  /-- 8XY5 SUB (R158) -/
  | subVxVy (x y : Nibble)
  /-- 8XY6 SHR (R160) -/
  | shr (x y : Nibble)
  /-- 8XYE SHL (R161) -/
  | shl (x y : Nibble)
  /-- 9XY_ SNE_VX_VY (R126); the last nibble is ignored (R80) -/
  | sneVxVy (x y : Nibble)
  /-- ANNN LD_I (R163) -/
  | ldI (nnn : Addr)
  /-- BNNN JP_V0 (R128) -/
  | jpV0 (nnn : Addr)
  /-- BXNN JP_VX (R129); `nnn` holds the X nibble too (R74) -/
  | jpVx (x : Nibble) (nnn : Addr)
  /-- CXNN RND (R164) -/
  | rnd (x : Nibble) (nn : Byte)
  /-- DXYN DRW (R191) -/
  | drw (x y n : Nibble)
  /-- FX07 LD_VX_DT (R210) -/
  | ldVxDt (x : Nibble)
  /-- FX15 LD_DT_VX (R211) -/
  | ldDtVx (x : Nibble)
  /-- FX18 LD_ST_VX (R212) -/
  | ldStVx (x : Nibble)
  /-- 8XY7, row UNSETTLED_8XY7: R107, R106 or SUBN of R162, by `P_8XY7` -/
  | unsettled8xy7 (x y : Nibble)
  /-- FX1E, row UNSETTLED_FX1E: R107, R106 or ADD_I of R213, by `P_FX1E` -/
  | unsettledFx1e (x : Nibble)
  /-- 0__0, row UNSETTLED_F0_N0 (R76, R107); `mid` is w[11:4] -/
  | unsettledF0N0 (mid : Byte)
  /-- 0__E, row UNSETTLED_F0_NE (R76, R107); `mid` is w[11:4] -/
  | unsettledF0Ne (mid : Byte)
  /-- UNKNOWN(w) (R83, R106) -/
  | unknown (w : Word)
  deriving DecidableEq, Repr

end Sys2Proof
end

