-- ==== Sys2Proof/WellFormed.lean ====
section
/-! DEFINITION. Which terms of `Instr` stand for a word of the machine: those its decoder
can answer under given parameters and mode (spec 30_encoding.md R74, R76 to R79, R83). -/

namespace Sys2Proof

/-- The UNKNOWN words of R83 in family 0, by `P_F0_DECODE` (R76). -/
def unknownFamily0 (p : Params) (w : Word) : Bool :=
  match p.f0Decode with
  | .unsettled | .lastNibble => w.extractLsb' 0 4 != 0x0#4 && w.extractLsb' 0 4 != 0xE#4
  | .exact => w != 0x00E0#16 && w != 0x00EE#16
  | .lastByte => w.extractLsb' 0 8 != 0xE0#8 && w.extractLsb' 0 8 != 0xEE#8

/-- The UNKNOWN words of R83 in family 8: n in 8..D and F, and 7 under `P_8XY7 = Unknown` (R77). -/
def unknownFamily8 (p : Params) (w : Word) : Bool :=
  let n := (w.extractLsb' 0 4).toNat
  (8 ≤ n && n != 0xE) || (n == 7 && p.op8xy7 == .unknown)

/-- The UNKNOWN words of R83 in family F: nn not 07, 15, 18, 1E, and 1E under
`P_FX1E = Unknown` (R79). -/
def unknownFamilyF (p : Params) (w : Word) : Bool :=
  let nn := w.extractLsb' 0 8
  (nn != 0x07#8 && nn != 0x15#8 && nn != 0x18#8 && nn != 0x1E#8) ||
    (nn == 0x1E#8 && p.opFx1e == .unknown)

/-- Is `w` one of the UNKNOWN words of R83? -/
def unknownWord (p : Params) (w : Word) : Bool :=
  let first := w.extractLsb' 12 4
  (first == 0x0#4 && unknownFamily0 p w) || (first == 0x8#4 && unknownFamily8 p w) ||
    first == 0xE#4 || (first == 0xF#4 && unknownFamilyF p w)

/-- Is `w` one of the UNSETTLED words of R83: 0__0 and 0__E other than 00E0 and 00EE (R76),
8XY7 (R77) and FX1E (R79), each under its parameter's value Unsettled? -/
def unsettledWord (p : Params) (w : Word) : Bool :=
  let first := w.extractLsb' 12 4
  let n := w.extractLsb' 0 4
  (first == 0x0#4 && p.f0Decode == .unsettled && (n == 0x0#4 || n == 0xE#4) &&
      w != 0x00E0#16 && w != 0x00EE#16) ||
    (first == 0x8#4 && n == 0x7#4 && p.op8xy7 == .unsettled) ||
    (first == 0xF#4 && w.extractLsb' 0 8 == 0x1E#8 && p.opFx1e == .unsettled)

/-- The instruction is one the decoder answers for some word under `p` and `c`. -/
def Instr.wf (p : Params) (c : Compat) : Instr → Bool
  | .cls => true
  | .ret => true
  | .jp _ => true
  | .call _ => true
  | .seVxNn _ _ => true
  | .sneVxNn _ _ => true
  | .seVxVy _ _ => true
  | .ldVxNn _ _ => true
  | .addVxNn _ _ => true
  | .ldVxVy _ _ => true
  | .orVxVy _ _ => true
  | .andVxVy _ _ => true
  | .xorVxVy _ _ => true
  | .addVxVy _ _ => true
  | .subVxVy _ _ => true
  | .shr _ _ => true
  | .shl _ _ => true
  | .sneVxVy _ _ => true
  | .ldI _ => true
  | .jpV0 nnn =>
    match p.bDecode with
    | .byXNibble => nnn.extractLsb' 8 4 == 0x0#4
    | .byMode => c == .original
  | .jpVx x nnn =>
    nnn.extractLsb' 8 4 == x &&
      match p.bDecode with
      | .byXNibble => x != 0x0#4
      | .byMode => c == .new
  | .rnd _ _ => true
  | .drw _ _ _ => true
  | .ldVxDt _ => true
  | .ldDtVx _ => true
  | .ldStVx _ => true
  | .unsettled8xy7 _ _ => p.op8xy7 != .unknown
  | .unsettledFx1e _ => p.opFx1e != .unknown
  | .unsettledF0N0 mid => p.f0Decode == .unsettled && mid != 0x0E#8
  | .unsettledF0Ne mid => p.f0Decode == .unsettled && mid != 0x0E#8
  | .unknown w => unknownWord p w

end Sys2Proof
end

