-- ==== Sys2Proof/Decode.lean ====
section
/-! DEFINITION. The fields of an instruction word, the two-level decoder and the encoder
(spec 30_encoding.md R70 to R85). -/

namespace Sys2Proof

/-- `first` = w[15:12], the opcode family (R70). -/
def fieldFirst (w : Word) : Nibble := w.extractLsb' 12 4

/-- `x` = w[11:8] (R70). -/
def fieldX (w : Word) : Nibble := w.extractLsb' 8 4

/-- `y` = w[7:4] (R70). -/
def fieldY (w : Word) : Nibble := w.extractLsb' 4 4

/-- `n` = w[3:0] (R70). -/
def fieldN (w : Word) : Nibble := w.extractLsb' 0 4

/-- `nn` = w[7:0] (R70). -/
def fieldNN (w : Word) : Byte := w.extractLsb' 0 8

/-- `nnn` = w[11:0] (R70). -/
def fieldNNN (w : Word) : Addr := w.extractLsb' 0 12

/-- w[11:4], the bits a family-0 word has beside its family and its last nibble. -/
def fieldMid (w : Word) : Byte := w.extractLsb' 4 8

/-- Family 0 by `P_F0_DECODE` (R76). -/
def decodeFamily0 (p : Params) (w : Word) : Instr :=
  match p.f0Decode with
  | .unsettled =>
    if w = 0x00E0#16 then .cls
    else if w = 0x00EE#16 then .ret
    else if fieldN w = 0x0#4 then .unsettledF0N0 (fieldMid w)
    else if fieldN w = 0xE#4 then .unsettledF0Ne (fieldMid w)
    else .unknown w
  | .exact =>
    if w = 0x00E0#16 then .cls
    else if w = 0x00EE#16 then .ret
    else .unknown w
  | .lastByte =>
    if fieldNN w = 0xE0#8 then .cls
    else if fieldNN w = 0xEE#8 then .ret
    else .unknown w
  | .lastNibble =>
    if fieldN w = 0x0#4 then .cls
    else if fieldN w = 0xE#4 then .ret
    else .unknown w

/-- Family 8 by the last nibble (R77). -/
def decodeFamily8 (p : Params) (w : Word) : Instr :=
  match (fieldN w).toNat with
  | 0x0 => .ldVxVy (fieldX w) (fieldY w)
  | 0x1 => .orVxVy (fieldX w) (fieldY w)
  | 0x2 => .andVxVy (fieldX w) (fieldY w)
  | 0x3 => .xorVxVy (fieldX w) (fieldY w)
  | 0x4 => .addVxVy (fieldX w) (fieldY w)
  | 0x5 => .subVxVy (fieldX w) (fieldY w)
  | 0x6 => .shr (fieldX w) (fieldY w)
  | 0x7 =>
    match p.op8xy7 with
    | .unsettled => .unsettled8xy7 (fieldX w) (fieldY w)
    | .unknown => .unknown w
    | .subN => .unsettled8xy7 (fieldX w) (fieldY w)
  | 0xE => .shl (fieldX w) (fieldY w)
  | _ => .unknown w

/-- Family B by `P_B_DECODE` (R78). -/
def decodeFamilyB (p : Params) (c : Compat) (w : Word) : Instr :=
  match p.bDecode with
  | .byXNibble =>
    if fieldX w = 0x0#4 then .jpV0 (fieldNNN w) else .jpVx (fieldX w) (fieldNNN w)
  | .byMode =>
    match c with
    | .original => .jpV0 (fieldNNN w)
    | .new => .jpVx (fieldX w) (fieldNNN w)

/-- Family F by the last byte (R79). -/
def decodeFamilyF (p : Params) (w : Word) : Instr :=
  match (fieldNN w).toNat with
  | 0x07 => .ldVxDt (fieldX w)
  | 0x15 => .ldDtVx (fieldX w)
  | 0x18 => .ldStVx (fieldX w)
  | 0x1E =>
    match p.opFx1e with
    | .unsettled => .unsettledFx1e (fieldX w)
    | .unknown => .unknown w
    | .addI => .unsettledFx1e (fieldX w)
  | _ => .unknown w

/-- The decode function of R85. Total: every word has exactly one outcome (R83). -/
def decode (p : Params) (c : Compat) (w : Word) : Instr :=
  match (fieldFirst w).toNat with
  | 0x0 => decodeFamily0 p w
  | 0x1 => .jp (fieldNNN w)
  | 0x2 => .call (fieldNNN w)
  | 0x3 => .seVxNn (fieldX w) (fieldNN w)
  | 0x4 => .sneVxNn (fieldX w) (fieldNN w)
  | 0x5 => .seVxVy (fieldX w) (fieldY w)
  | 0x6 => .ldVxNn (fieldX w) (fieldNN w)
  | 0x7 => .addVxNn (fieldX w) (fieldNN w)
  | 0x8 => decodeFamily8 p w
  | 0x9 => .sneVxVy (fieldX w) (fieldY w)
  | 0xA => .ldI (fieldNNN w)
  | 0xB => decodeFamilyB p c w
  | 0xC => .rnd (fieldX w) (fieldNN w)
  | 0xD => .drw (fieldX w) (fieldY w) (fieldN w)
  | 0xE => .unknown w
  | _ => decodeFamilyF p w

/-- The word of two bytes, big-endian: the byte at the lower address is bits 15 to 8 (R52). -/
def wordOfBytes (hi lo : Byte) : Word := hi ++ lo

/-- Why bytes hold no instruction. Every two bytes hold one (R83), so only shortness is left. -/
inductive DecodeReject where
  /-- Fewer than the two bytes of an instruction word (R70). Safe: nothing is decoded. -/
  | truncated
  deriving DecidableEq, Repr

/-- Decodes the instruction at the head of a byte list and answers the bytes after it. -/
def decodeBytes (p : Params) (c : Compat) : List Byte → Except DecodeReject (Instr × List Byte)
  | hi :: lo :: rest => .ok (decode p c (wordOfBytes hi lo), rest)
  | _ => .error .truncated

/-- The word of an instruction, from the field positions of R70 and the rows of R75 to R79.
An assembler writes 0 in the ignored last nibble of families 5 and 9 (R86). -/
def encode : Instr → Word
  | .cls => 0x00E0#16
  | .ret => 0x00EE#16
  | .jp nnn => 0x1#4 ++ nnn
  | .call nnn => 0x2#4 ++ nnn
  | .seVxNn x nn => 0x3#4 ++ x ++ nn
  | .sneVxNn x nn => 0x4#4 ++ x ++ nn
  | .seVxVy x y => 0x5#4 ++ x ++ y ++ 0x0#4
  | .ldVxNn x nn => 0x6#4 ++ x ++ nn
  | .addVxNn x nn => 0x7#4 ++ x ++ nn
  | .ldVxVy x y => 0x8#4 ++ x ++ y ++ 0x0#4
  | .orVxVy x y => 0x8#4 ++ x ++ y ++ 0x1#4
  | .andVxVy x y => 0x8#4 ++ x ++ y ++ 0x2#4
  | .xorVxVy x y => 0x8#4 ++ x ++ y ++ 0x3#4
  | .addVxVy x y => 0x8#4 ++ x ++ y ++ 0x4#4
  | .subVxVy x y => 0x8#4 ++ x ++ y ++ 0x5#4
  | .shr x y => 0x8#4 ++ x ++ y ++ 0x6#4
  | .shl x y => 0x8#4 ++ x ++ y ++ 0xE#4
  | .sneVxVy x y => 0x9#4 ++ x ++ y ++ 0x0#4
  | .ldI nnn => 0xA#4 ++ nnn
  | .jpV0 nnn => 0xB#4 ++ nnn
  | .jpVx _ nnn => 0xB#4 ++ nnn
  | .rnd x nn => 0xC#4 ++ x ++ nn
  | .drw x y n => 0xD#4 ++ x ++ y ++ n
  | .ldVxDt x => 0xF#4 ++ x ++ 0x07#8
  | .ldDtVx x => 0xF#4 ++ x ++ 0x15#8
  | .ldStVx x => 0xF#4 ++ x ++ 0x18#8
  | .unsettled8xy7 x y => 0x8#4 ++ x ++ y ++ 0x7#4
  | .unsettledFx1e x => 0xF#4 ++ x ++ 0x1E#8
  | .unsettledF0N0 mid => 0x0#4 ++ mid ++ 0x0#4
  | .unsettledF0Ne mid => 0x0#4 ++ mid ++ 0xE#4
  | .unknown w => w

/-- The byte at the lower address, bits 15 to 8 (R52). -/
def highByte (w : Word) : Byte := w.extractLsb' 8 8

/-- The byte at the higher address, bits 7 to 0 (R52). -/
def lowByte (w : Word) : Byte := w.extractLsb' 0 8

/-- The bytes of an instruction in memory order (R52). -/
def encodeBytes (i : Instr) : List Byte := [highByte (encode i), lowByte (encode i)]

/-- The word whose low `nbits` bits are those of `w` and whose other bits are 0, numbered as
spec/opcode_table.json numbers them. Every instruction is one 16-bit word (R70). -/
def tableWord (nbits w : Nat) : Word := BitVec.ofNat 16 (w % 2 ^ nbits)

/-- The instruction the decoder reads from a table word laid out as the memory holds it, under
the default parameters and the mode of `State.reset`. -/
def decodeTableWord (nbits w : Nat) : Option Instr :=
  match decodeBytes Params.default .original
      [highByte (tableWord nbits w), lowByte (tableWord nbits w)] with
  | .ok (i, _) => some i
  | .error _ => none

end Sys2Proof
end

