-- ==== Sys2Proof/Machine/State.lean ====
section
/-! DEFINITION. The state of the core as plain data: the record of 10_state.md R20, the two
ports a cycle drives or takes (00_scope.md R10), the parameters (R11) and the model's draw
counter. And the state after reset (R37, 70_reset_and_hazards.md R250). -/

namespace Sys2Proof.Machine

/-- The fault codes of 60_exceptions.md R220. -/
inductive FaultCode where
  | none
  | stackUnderflow
  | configMismatch
  | fetchOutOfBounds
  | memReadOutOfBounds
  | drawOutOfBounds
  | unsettledEncoding
  | stackOverflow
  deriving DecidableEq, Repr

/-- What a cycle reports on the `result` port (00_scope.md R10, 60_exceptions.md R229). -/
inductive CycleResult where
  | ok
  | warn (w : Word)
  | fatal (code : FaultCode)
  deriving DecidableEq, Repr

/-- Why the MODEL stops. The core's own fatal errors are next states (R221), not these. -/
inductive Fault where
  /-- Raised by `step` alone, when `params` breaks R12's constraints: such parameters are no
  machine of this spec. Safe: nothing is claimed of it (log entry 2). -/
  | illegalParameters
  deriving DecidableEq, Repr

/-- Why an instruction has no meaning. -/
inductive Refusal where
  /-- For an arm of `exec` without a meaning; no arm is. Safe: nothing is claimed. -/
  | notModelled (mnemonic : String)
  deriving DecidableEq, Repr

/-- What an address that `Memory` does not list reads as (DESIGN CHOICE, log entry 5). -/
def unlistedByte : Byte := 0x00#8

/-- `mem` (R35, R50): the bytes that differ from `unlistedByte`, by address. -/
abbrev Memory := List Host.Cell

/-- The one form a memory is held in: addresses rising, no entry an unlisted address reads as. -/
abbrev Memory.wf (m : Memory) : Prop :=
  m.Pairwise (fun a b => a.1 < b.1) ∧ ∀ c ∈ m, c.2 ≠ unlistedByte

/-- The state record of R20, the ports, the parameters and the draw counter. -/
structure State where
  /-- the general registers V0..VF (R21) -/
  v : Vector Byte 16
  /-- the program counter (R23, R24) -/
  pc : Word
  /-- the index register (R31) -/
  i : Word
  /-- the return stack (R32), the most recently pushed entry first -/
  stack : List Word
  /-- the delay timer (R33) -/
  dt : Byte
  /-- the sound timer (R33) -/
  st : Byte
  /-- the framebuffer (R34): pixel (x, y) at position y * P_WIDTH + x, true = on -/
  gfx : List Bool
  /-- the memory (R35) -/
  mem : Memory
  /-- the compatibility mode (R28) -/
  compat : Compat
  /-- 1 once a fatal error has occurred (R29) -/
  halted : Bool
  /-- the code of that error (R29) -/
  fault : FaultCode
  /-- the parameters (R11); no instruction writes them (log entry 1) -/
  params : Params
  /-- the `result` port (R10, R100): what the last step request produced (log entry 3) -/
  result : Option CycleResult
  /-- the `rand_byte` port (R10, R233): the byte the host has supplied, until a draw takes it -/
  randPort : Option Byte
  /-- the model's own counter of draws; it picks the next free random byte (log entry 4) -/
  draws : Nat
  deriving DecidableEq, Repr

/-- The state reset leaves (R37, R250): the image and the mode are inputs of reset (R251,
R28). `draws` is the model's counter, which a reset does not restart (log entry 4). -/
def State.resetWith (p : Params) (image : Memory) (c : Compat) (draws : Nat) : State where
  v := Vector.replicate 16 0x00#8
  pc := p.romBase
  i := 0x0000#16
  stack := []
  dt := 0x00#8
  st := 0x00#8
  gfx := List.replicate (p.height * p.width) false
  mem := image
  compat := c
  halted := false
  fault := .none
  params := p
  result := none
  randPort := none
  draws := draws

/-- The machine right after reset under the default parameters (R11), with an empty image
(log entry 5) and the Original mode (log entry 6). -/
def State.reset : State := State.resetWith Params.default [] .original 0

end Sys2Proof.Machine
end

