-- ==== Sys2Proof/Machine/Ops.lean ====
section
/-! DEFINITION. The shared operations over memory, pc, stack, framebuffer and ports (spec
00_scope.md R15), entry into a fatal error (60_exceptions.md R221) and the unknown-opcode
report (40_cycle.md R106). There is no return from a fatal error: R221 item 4, R225; the
way out is reset (R223), in HostPort.lean. -/

namespace Sys2Proof.Machine

/-- The outcome of running one instruction or one step. -/
abbrev StepOutcome := Host.Outcome State Fault Refusal

/-! ## Memory -/

/-- The byte a memory holds at an address (R50). -/
def Memory.read : Memory → Nat → Byte
  | [], _ => unlistedByte
  | (b, v) :: m, a => if a = b then v else Memory.read m a

/-- Puts a byte at an address and keeps the canonical form. The core never writes memory
(R53); the loader does, before reset is released (R233). -/
def Memory.write : Memory → Nat → Byte → Memory
  | [], a, v => if v = unlistedByte then [] else [(a, v)]
  | (b, w) :: m, a, v =>
    if a < b then
      if v = unlistedByte then (b, w) :: m else (a, v) :: (b, w) :: m
    else if a = b then
      if v = unlistedByte then m else (a, v) :: m
    else (b, w) :: Memory.write m a v

/-- Puts consecutive bytes from an address on: a loader's way to build an image (R251). -/
def Memory.writeBytes : Memory → Nat → List Byte → Memory
  | m, _, [] => m
  | m, a, v :: vs => Memory.writeBytes (Memory.write m a v) (a + 1) vs

/-- `MemRead(addr, 1)` with its bound (R51, R56): no byte at `P_MEM_SIZE` or above. -/
def State.memRead (s : State) (a : Nat) : Option Byte :=
  if a < s.params.memSize then some (Memory.read s.mem a) else none

/-- The `n` bytes from an address on, if every one of them lies in memory. The sum does not
wrap (log entry 7). -/
def State.memReadBytes (s : State) (a : Nat) : Nat → Option (List Byte)
  | 0 => some []
  | n + 1 =>
    match s.memRead a, State.memReadBytes s (a + 1) n with
    | some b, some bs => some (b :: bs)
    | _, _ => none

/-! ## The cycle's own steps -/

/-- The fetch of R101: the word at `pc`, big-endian, if both its bytes lie in memory.
`pc + 1` is computed without wrap-around. -/
def State.fetchWord (s : State) : Option Word :=
  match s.memRead s.pc.toNat, s.memRead (s.pc.toNat + 1) with
  | some hi, some lo => some (wordOfBytes hi lo)
  | _, _ => none

/-- The advance of R102, and the cycle's result until its execution says otherwise (R100:
"result <- Ok, unless execute ended with warn(w) or raise Fatal(code)"). -/
def State.advance (s : State) : State :=
  { s with pc := s.pc + 2, result := some .ok }

/-- A step request to a halted core: it changes nothing and produces no result (R108). -/
def State.idle (s : State) : State := { s with result := none }

/-- The state after entry into a fatal error (R221): halted, the code recorded and reported,
everything else, pc included, as it was when the error was raised. -/
def State.fatal (s : State) (code : FaultCode) : State :=
  { s with halted := true, fault := code, result := some (.fatal code) }

/-- `raise Fatal(code)` (R15, R221). -/
def raiseFatal (code : FaultCode) (s : State) : StepOutcome := .next (s.fatal code)

/-- `warn(word)` (R15, R106): nothing is written, the word is reported. -/
def State.warn (s : State) (w : Word) : State := { s with result := some (.warn w) }

/-- The number of a fault code (R220). -/
def FaultCode.number : FaultCode → Nat
  | .none => 0
  | .stackUnderflow => 1
  | .configMismatch => 2
  | .fetchOutOfBounds => 3
  | .memReadOutOfBounds => 4
  | .drawOutOfBounds => 5
  | .unsettledEncoding => 6
  | .stackOverflow => 7

/-! ## pc and stack -/

/-- `pc <- target` (R15). -/
def State.setPc (s : State) (target : Word) : State := { s with pc := target }

/-- A taken skip: `pc <- (pc + 2) mod 2^16` (41_control_flow.md section 2). -/
def State.skip (s : State) : State := s.setPc (s.pc + 2)

/-- `if cond: pc <- (pc + 2) mod 2^16`, the shape of every skip (R123 to R126). -/
def State.skipIf (s : State) (cond : Bool) : State := if cond then s.skip else s

/-- `push(v)` (R15, R32). -/
def State.push (s : State) (v : Word) : State := { s with stack := v :: s.stack }

/-- Is the stack at `P_STACK_LIMIT`? Never when no limit is set (R122, R132). -/
def State.stackFull (s : State) : Bool :=
  match s.params.stackLimit with
  | none => false
  | some k => s.stack.length == k

/-! ## Index register, timers -/

/-- `i <- v` (R15). -/
def State.setI (s : State) (v : Word) : State := { s with i := v }

/-- `dt <- v` (R15). -/
def State.setDt (s : State) (v : Byte) : State := { s with dt := v }

/-- `st <- v` (R15). -/
def State.setSt (s : State) (v : Byte) : State := { s with st := v }

/-! ## Random byte -/

/-- `draw_random()` (R15, R164): the byte the host has put on the port, else a free value. -/
def State.randomByte (s : State) : Byte := s.randPort.getD (Config.randByte s.draws)

/-- The draw takes the byte off the port, and the next free value will be another one. -/
def State.afterDraw (s : State) : State := { s with randPort := none, draws := s.draws + 1 }

/-! ## Framebuffer -/

/-- Where pixel (x, y) stands in the flat framebuffer (R34). -/
def pixelIndex (p : Params) (x y : Nat) : Nat := y * p.width + x

/-- `gfx[y][x]` of a framebuffer (R15, R34). -/
def gfxPixel (p : Params) (gfx : List Bool) (x y : Nat) : Bool :=
  gfx.getD (pixelIndex p x y) false

/-- `gfx[y][x] <- b`. -/
def gfxSetPixel (p : Params) (gfx : List Bool) (x y : Nat) (b : Bool) : List Bool :=
  gfx.set (pixelIndex p x y) b

/-- The pixel at column x, row y of the machine's framebuffer. -/
def State.pixel (s : State) (x y : Nat) : Bool := gfxPixel s.params s.gfx x y

/-- A framebuffer with every pixel off (R190). -/
def gfxClear (p : Params) : List Bool := List.replicate (p.height * p.width) false

/-- A framebuffer being drawn on, with the collision bit so far (R193). -/
structure Canvas where
  gfx : List Bool
  collision : Bool
  deriving DecidableEq, Repr

/-- Where a sprite pixel lands: at its own position inside the framebuffer; past an edge,
nowhere under Clip and toroidally under Wrap (R192). Under Fault no pixel past an edge is
reached, since the whole draw has been refused before (R191). -/
def spriteTarget (p : Params) (px py : Nat) : Option (Nat × Nat) :=
  if px < p.width ∧ py < p.height then some (px, py)
  else
    match p.drawEdge with
    | .wrap => some (px % p.width, py % p.height)
    | .clip => none
    | .fault => none

/-- Draws one sprite bit at (px, py) by XOR; an on-to-off transition is a collision (R191). -/
def drawBit (p : Params) (px py : Nat) (bit : Bool) (k : Canvas) : Canvas :=
  match spriteTarget p px py with
  | none => k
  | some (x, y) =>
    if bit then
      { gfx := gfxSetPixel p k.gfx x y (!gfxPixel p k.gfx x y)
        collision := k.collision || gfxPixel p k.gfx x y }
    else k

/-- Draws the last `c` columns of a sprite row, leftmost first: column 8 - c is bit c - 1 of
the byte, so bit 7 is the leftmost pixel (R195). -/
def drawColumns (p : Params) (ox py : Nat) (b : Byte) : Nat → Canvas → Canvas
  | 0, k => k
  | c + 1, k => drawColumns p ox py b c (drawBit p (ox + (7 - c)) py (b.getLsbD c) k)

/-- Draws the rows of a sprite from row `py` on, top to bottom (R195). -/
def drawRows (p : Params) (ox : Nat) : Nat → List Byte → Canvas → Canvas
  | _, [], k => k
  | py, b :: bs, k => drawRows p ox (py + 1) bs (drawColumns p ox py b 8 k)

/-- The edge check of R191 under `P_DRAW_EDGE = Fault`: some of the n × 8 positions lies past
the right or bottom edge, whatever its bit. -/
def drawPastEdge (p : Params) (ox oy n : Nat) : Bool :=
  p.drawEdge == .fault && decide (0 < n) &&
    (decide (p.width ≤ ox + 7) || decide (p.height ≤ oy + n - 1))

end Sys2Proof.Machine
end

