-- ==== Sys2Proof/Machine/Operands.lean ====
section
/-! DEFINITION. The operand forms: general registers (spec 10_state.md R21, 30_encoding.md
R73), the shift source (42_alu.md R159), the jump-with-offset target (41_control_flow.md
R128, R129) and the sprite's origin and bytes (43_display.md R191). -/

namespace Sys2Proof.Machine

/-- `V[x]` (R15). No register is hardwired (R21). -/
def State.getReg (s : State) (x : Nibble) : Byte := s.v[x.toNat]'x.isLt

/-- `V[x] <- b` (R15). -/
def State.setReg (s : State) (x : Nibble) (b : Byte) : State :=
  { s with v := s.v.set x.toNat b x.isLt }

/-- VF, the register that doubles as the flag (R27). -/
def flagReg : Nibble := 0xF#4

/-- V0, the offset register of BNNN (R128). -/
def offsetReg : Nibble := 0x0#4

/-- A constant address operand: `zext_16(nnn)` (R73). -/
def addrOperand (nnn : Addr) : Word := nnn.setWidth 16

/-- The value 8XY6 and 8XYE shift (R159). -/
def State.shiftSource (s : State) (x y : Nibble) : Byte :=
  match s.compat with
  | .original => s.getReg y
  | .new => s.getReg x

/-- `zext_16(nnn) + zext_16(V[x])`, the target of a jump with offset (R128, R129). -/
def State.offsetTarget (s : State) (x : Nibble) (nnn : Addr) : Word :=
  addrOperand nnn + (s.getReg x).setWidth 16

/-- The column a sprite starts at: the origin wraps on entry (R191). -/
def State.originX (s : State) (x : Nibble) : Nat := (s.getReg x).toNat % s.params.width

/-- The row a sprite starts at: the origin wraps on entry (R191). -/
def State.originY (s : State) (y : Nibble) : Nat := (s.getReg y).toNat % s.params.height

/-- The bytes at i, i + 1, ..., i + n - 1, if every one of them lies in memory (R56, R191). -/
def State.spriteBytes (s : State) (n : Nibble) : Option (List Byte) :=
  s.memReadBytes s.i.toNat n.toNat

end Sys2Proof.Machine
end

