-- ==== Sys2Proof/Machine/Alu.lean ====
section
/-! DEFINITION. The register ALU, the load of `i` and the random byte (spec 42_alu.md).
Operands are read before any write (40_cycle.md R105). -/

namespace Sys2Proof.Machine

/-- 6XNN LD Vx, byte (R151). -/
def execLdVxNn (x : Nibble) (nn : Byte) (s : State) : StepOutcome := .next (s.setReg x nn)

/-- 7XNN ADD Vx, byte: modulo 256, no flag (R152). -/
def execAddVxNn (x : Nibble) (nn : Byte) (s : State) : StepOutcome :=
  .next (s.setReg x (s.getReg x + nn))

/-- 8XY0 LD Vx, Vy (R153). -/
def execLdVxVy (x y : Nibble) (s : State) : StepOutcome := .next (s.setReg x (s.getReg y))

/-- 8XY1 OR Vx, Vy (R154). -/
def execOrVxVy (x y : Nibble) (s : State) : StepOutcome :=
  .next (s.setReg x (s.getReg x ||| s.getReg y))

/-- 8XY2 AND Vx, Vy (R155). -/
def execAndVxVy (x y : Nibble) (s : State) : StepOutcome :=
  .next (s.setReg x (s.getReg x &&& s.getReg y))

/-- 8XY3 XOR Vx, Vy (R156). -/
def execXorVxVy (x y : Nibble) (s : State) : StepOutcome :=
  .next (s.setReg x (s.getReg x ^^^ s.getReg y))

/-- 8XY4 ADD Vx, Vy: VF = carry, written last (R157). -/
def execAddVxVy (x y : Nibble) (s : State) : StepOutcome :=
  let a := s.getReg x
  let b := s.getReg y
  .next (s.setResultAndFlag x (a + b) (carryOut a b))

/-- `V[x] <- a - b`, VF = no borrow, written last: the shape of R158 and R162. -/
def subtractInto (x : Nibble) (a b : Byte) (s : State) : StepOutcome :=
  .next (s.setResultAndFlag x (a - b) (noBorrow a b))

/-- 8XY5 SUB Vx, Vy (R158). -/
def execSubVxVy (x y : Nibble) (s : State) : StepOutcome :=
  subtractInto x (s.getReg x) (s.getReg y) s

/-- 8XY6 SHR Vx, Vy (R160). -/
def execShr (x y : Nibble) (s : State) : StepOutcome :=
  let src := s.shiftSource x y
  .next (s.setResultAndFlag x (src >>> 1) (shiftedOutRight src))

/-- 8XYE SHL Vx, Vy (R161). -/
def execShl (x y : Nibble) (s : State) : StepOutcome :=
  let src := s.shiftSource x y
  .next (s.setResultAndFlag x (src <<< 1) (shiftedOutLeft src))

/-- SUBN Vx, Vy (R162), which 8XY7 is under `P_8XY7 = SubN`. -/
def subN (x y : Nibble) (s : State) : StepOutcome :=
  subtractInto x (s.getReg y) (s.getReg x) s

/-- ANNN LD I, addr (R163). -/
def execLdI (nnn : Addr) (s : State) : StepOutcome := .next (s.setI (addrOperand nnn))

/-- CXNN RND Vx, byte (R164). -/
def execRnd (x : Nibble) (nn : Byte) (s : State) : StepOutcome :=
  .next (s.afterDraw.setReg x (s.randomByte &&& nn))

end Sys2Proof.Machine
end

