-- ==== Sys2Proof/Machine/ControlFlow.lean ====
section
/-! DEFINITION. Return, jump, call, the four skips and the two jumps with offset (spec
41_control_flow.md). `pc` on entry is the post-fetch value (40_cycle.md R109). -/

namespace Sys2Proof.Machine

/-- 00EE RET (R120). -/
def execRet (s : State) : StepOutcome :=
  match s.stack with
  | [] => raiseFatal .stackUnderflow s
  | a :: rest => .next { s with pc := a, stack := rest }

/-- 1NNN JP addr (R121). -/
def execJp (nnn : Addr) (s : State) : StepOutcome := .next (s.setPc (addrOperand nnn))

/-- 2NNN CALL addr (R122). -/
def execCall (nnn : Addr) (s : State) : StepOutcome :=
  if s.stackFull then raiseFatal .stackOverflow s
  else .next ((s.push s.pc).setPc (addrOperand nnn))

/-- 3XNN SE Vx, byte (R123). -/
def execSeVxNn (x : Nibble) (nn : Byte) (s : State) : StepOutcome :=
  .next (s.skipIf (s.getReg x == nn))

/-- 4XNN SNE Vx, byte (R124). -/
def execSneVxNn (x : Nibble) (nn : Byte) (s : State) : StepOutcome :=
  .next (s.skipIf (s.getReg x != nn))

/-- 5XY0 SE Vx, Vy (R125). -/
def execSeVxVy (x y : Nibble) (s : State) : StepOutcome :=
  .next (s.skipIf (s.getReg x == s.getReg y))

/-- 9XY0 SNE Vx, Vy (R126). -/
def execSneVxVy (x y : Nibble) (s : State) : StepOutcome :=
  .next (s.skipIf (s.getReg x != s.getReg y))

/-- The jump with offset behind its gate (R127): only in the mode it belongs to. -/
def jumpWithOffset (mode : Compat) (x : Nibble) (nnn : Addr) (s : State) : StepOutcome :=
  if s.compat = mode then .next (s.setPc (s.offsetTarget x nnn))
  else raiseFatal .configMismatch s

/-- BNNN JP V0, addr (R128). -/
def execJpV0 (nnn : Addr) (s : State) : StepOutcome := jumpWithOffset .original offsetReg nnn s

/-- BXNN JP Vx, addr (R129). -/
def execJpVx (x : Nibble) (nnn : Addr) (s : State) : StepOutcome := jumpWithOffset .new x nnn s

end Sys2Proof.Machine
end

