-- ==== Sys2Proof/Machine/Display.lean ====
section
/-! DEFINITION. Clear screen and draw with collision (spec 43_display.md). -/

namespace Sys2Proof.Machine

/-- 00E0 CLS (R190). -/
def execCls (s : State) : StepOutcome := .next { s with gfx := gfxClear s.params }

/-- DXYN DRW Vx, Vy, nibble (R191): every sprite address is checked first, then the edge
(R230), and nothing is written if a check fails; VF is written once, after the sprite (R193). -/
def execDrw (x y n : Nibble) (s : State) : StepOutcome :=
  match s.spriteBytes n with
  | none => raiseFatal .memReadOutOfBounds s
  | some bytes =>
    if drawPastEdge s.params (s.originX x) (s.originY y) n.toNat then
      raiseFatal .drawOutOfBounds s
    else
      let k := drawRows s.params (s.originX x) (s.originY y) bytes ⟨s.gfx, false⟩
      .next ({ s with gfx := k.gfx }.setFlag k.collision)

end Sys2Proof.Machine
end

