-- ==== Sys2Proof/Machine/Timers.lean ====
section
/-! DEFINITION. The timer transfers and the FX1E option (spec 44_timers.md). -/

namespace Sys2Proof.Machine

/-- FX07 LD Vx, DT (R210). -/
def execLdVxDt (x : Nibble) (s : State) : StepOutcome := .next (s.setReg x s.dt)

/-- FX15 LD DT, Vx (R211). -/
def execLdDtVx (x : Nibble) (s : State) : StepOutcome := .next (s.setDt (s.getReg x))

/-- FX18 LD ST, Vx (R212). -/
def execLdStVx (x : Nibble) (s : State) : StepOutcome := .next (s.setSt (s.getReg x))

/-- ADD I, Vx (R213), which FX1E is under `P_FX1E = AddI`: modulo 2^16, no flag. -/
def addI (x : Nibble) (s : State) : StepOutcome :=
  .next (s.setI (s.i + (s.getReg x).setWidth 16))

end Sys2Proof.Machine
end

