-- ==== Sys2Proof/Machine/Unassigned.lean ====
section
/-! DEFINITION. The words that are not operations of the source's table: UNKNOWN (spec
40_cycle.md R106) and UNSETTLED (R107), with the readings `P_8XY7` and `P_FX1E` give the
rows 8XY7 and FX1E (00_scope.md R11). -/

namespace Sys2Proof.Machine

/-- The recoverable report of R106: a no-op with a warning. -/
def warnUnknown (w : Word) (s : State) : StepOutcome := .next (s.warn w)

/-- UNKNOWN(w) (R106). -/
def execUnknown (w : Word) (s : State) : StepOutcome := warnUnknown w s

/-- 8XY7 by `P_8XY7`: R107, R106 or R162 (R77). -/
def execUnsettled8xy7 (x y : Nibble) (s : State) : StepOutcome :=
  match s.params.op8xy7 with
  | .unsettled => raiseFatal .unsettledEncoding s
  | .unknown => warnUnknown (encode (.unsettled8xy7 x y)) s
  | .subN => subN x y s

/-- FX1E by `P_FX1E`: R107, R106 or R213 (R79). -/
def execUnsettledFx1e (x : Nibble) (s : State) : StepOutcome :=
  match s.params.opFx1e with
  | .unsettled => raiseFatal .unsettledEncoding s
  | .unknown => warnUnknown (encode (.unsettledFx1e x)) s
  | .addI => addI x s

/-- 0__0 other than 00E0, under `P_F0_DECODE = Unsettled` (R76, R107). -/
def execUnsettledF0N0 (_mid : Byte) (s : State) : StepOutcome := raiseFatal .unsettledEncoding s

/-- 0__E other than 00EE, under `P_F0_DECODE = Unsettled` (R76, R107). -/
def execUnsettledF0Ne (_mid : Byte) (s : State) : StepOutcome := raiseFatal .unsettledEncoding s

end Sys2Proof.Machine
end

