-- ==== Sys2Proof/Machine/Step.lean ====
section
/-! DEFINITION. One step request: the cycle of spec 40_cycle.md R100. -/

namespace Sys2Proof.Machine

/-- The cycle of R100, its checks in the order of 60_exceptions.md R229. -/
def step (s : State) : Host.Outcome State Fault Refusal :=
  if s.params.wf then
    if s.halted then .next s.idle
    else
      match s.fetchWord with
      | none => raiseFatal .fetchOutOfBounds s
      | some w => exec (decode s.params s.compat w) s.advance
  else .fault .illegalParameters

/-- The state with a table word (see `tableWord`) loaded where the next fetch reads it: at
`pc` and `pc + 1`, big-endian (R52). It stands for the loader (R251; log entry 8). -/
def State.withFetchWord (s : State) (nbits w : Nat) : State :=
  { s with
    mem := Memory.writeBytes s.mem s.pc.toNat
      [highByte (tableWord nbits w), lowByte (tableWord nbits w)] }

end Sys2Proof.Machine
end

