-- ==== Sys2Proof/Machine/HostPort.lean ====
section
/-! DEFINITION. What the host may do between cycles (spec 60_exceptions.md R231 to R233):
write the timers, supply a random byte, reset. Anything else is not part of this hardware. -/

namespace Sys2Proof.Machine

/-- The host's moves that touch the core (R233). -/
inductive HostMove where
  /-- a host timer action on `dt`: any 8-bit value (R232) -/
  | writeDt (b : Byte)
  /-- a host timer action on `st`: any 8-bit value (R232) -/
  | writeSt (b : Byte)
  /-- a byte on the `rand_byte` port for the next CXNN (R233) -/
  | supplyRandom (b : Byte)
  /-- reset with the loader's image and the mode on the `compat` input (R250) -/
  | reset (image : Memory) (c : Compat)
  deriving DecidableEq, Repr

/-- The state after a host move. A reset keeps the parameters, which are the machine's own,
and does not restart the stream of free random bytes (log entry 4). -/
def applyHost : HostMove → State → State
  | .writeDt b, s => s.setDt b
  | .writeSt b, s => s.setSt b
  | .supplyRandom b, s => { s with randPort := some b }
  | .reset image c, s => State.resetWith s.params image c s.draws

/-- What can happen next: a step request or a host move, in any order (R232, R258). -/
inductive Move where
  | cycle
  | host (h : HostMove)
  deriving DecidableEq, Repr

/-- One move of the whole system. -/
def applyMove : Move → State → StepOutcome
  | .cycle, s => step s
  | .host h, s => .next (applyHost h s)

/-- A sequence of moves, stopping at the model's first fault. -/
def applyMoves : List Move → State → StepOutcome
  | [], s => .next s
  | m :: ms, s =>
    match applyMove m s with
    | .next t => applyMoves ms t
    | .fault r => .fault r
    | .refused r => .refused r

/-- The mode a bit on the `compat` port stands for: 0 = Original, 1 = New (R10). -/
def compatOfBit (b : Bool) : Compat := if b then .new else .original

end Sys2Proof.Machine
end

