-- ==== Sys2Proof/Safety.lean ====
section
/-! DEFINITION. What a safe state and a safe run are, and the terms statements use: the
invariant of the machine, frames, the register access table of 10_state.md R22, and the
sprite of 43_display.md R191 as a picture. -/

namespace Sys2Proof.Machine

/-- The invariant every step keeps. -/
structure State.Inv (s : State) : Prop where
  /-- the parameters meet R12 -/
  params : s.params.wf
  /-- "`gfx` length is exactly width×height" (R34) -/
  gfx : s.gfx.length = s.params.height * s.params.width
  /-- memory is in its canonical form -/
  mem : Memory.wf s.mem
  /-- memory lists no address at or past `P_MEM_SIZE` (R35) -/
  memRange : ∀ c ∈ s.mem, c.1 < s.params.memSize
  /-- a fault code is recorded exactly when the core is halted (R29) -/
  fault : s.halted = true ↔ s.fault ≠ .none
  /-- the stack keeps its limit, if one is set (R132) -/
  stack : ∀ k, s.params.stackLimit = some k → s.stack.length ≤ k
  /-- no return address exceeds `P_MEM_SIZE` (R131) -/
  returns : ∀ a ∈ s.stack, a.toNat ≤ s.params.memSize

/-- A host move within the host's duties: a reset loads a canonical image that fits (R233,
R251). -/
def HostMove.legal (p : Params) : HostMove → Prop
  | .writeDt _ => True
  | .writeSt _ => True
  | .supplyRandom _ => True
  | .reset image _ => Memory.wf image ∧ ∀ c ∈ image, c.1 < p.memSize

/-- A move that starts a new session (R250). -/
def Move.isReset : Move → Bool
  | .cycle => false
  | .host (.writeDt _) => false
  | .host (.writeSt _) => false
  | .host (.supplyRandom _) => false
  | .host (.reset _ _) => true

/-- A safe run: `n` cycles with no fatal error (R221). -/
def State.runsClean (s : State) (n : Nat) : Prop :=
  ∃ t, Host.Core.run Sys2Proof.core n s = .next t ∧ t.halted = false

/-- The bytes at `pc` and `pc + 1` are `hi` and `lo` (R101). -/
def State.fetches (s : State) (hi lo : Byte) : Prop :=
  s.memRead s.pc.toNat = some hi ∧ s.memRead (s.pc.toNat + 1) = some lo

/-- A core that can run a cycle: legal parameters (R12) and not halted (R108). -/
def State.running (s : State) : Prop := s.params.wf ∧ s.halted = false

/-- The frame of an instruction that writes registers only: `t` is `s` but for the registers
of `written`; every byte of memory reads as before. -/
def State.onlyRegs (s t : State) (written : List Nibble) : Prop :=
  t = { s with v := t.v } ∧ (∀ r, r ∉ written → t.getReg r = s.getReg r) ∧
    ∀ a, t.memRead a = s.memRead a

/-- The frame of a draw: registers of `written` and the framebuffer. -/
def State.onlyRegsAndGfx (s t : State) (written : List Nibble) : Prop :=
  t = { s with v := t.v, gfx := t.gfx } ∧ (∀ r, r ∉ written → t.getReg r = s.getReg r) ∧
    (∀ a, t.memRead a = s.memRead a) ∧ t.gfx.length = s.gfx.length

/-- The registers an instruction reads (R22). -/
def regsRead (p : Params) (c : Compat) : Instr → List Nibble
  | .cls => []
  | .ret => []
  | .jp _ => []
  | .call _ => []
  | .seVxNn x _ => [x]
  | .sneVxNn x _ => [x]
  | .seVxVy x y => [x, y]
  | .ldVxNn _ _ => []
  | .addVxNn x _ => [x]
  | .ldVxVy _ y => [y]
  | .orVxVy x y => [x, y]
  | .andVxVy x y => [x, y]
  | .xorVxVy x y => [x, y]
  | .addVxVy x y => [x, y]
  | .subVxVy x y => [x, y]
  | .shr x y => if c = .original then [y] else [x]
  | .shl x y => if c = .original then [y] else [x]
  | .sneVxVy x y => [x, y]
  | .ldI _ => []
  | .jpV0 _ => [0x0#4]
  | .jpVx x _ => [x]
  | .rnd _ _ => []
  | .drw x y _ => [x, y]
  | .ldVxDt _ => []
  | .ldDtVx x => [x]
  | .ldStVx x => [x]
  | .unsettled8xy7 x y => if p.op8xy7 = .subN then [x, y] else []
  | .unsettledFx1e x => if p.opFx1e = .addI then [x] else []
  | .unsettledF0N0 _ => []
  | .unsettledF0Ne _ => []
  | .unknown _ => []

/-- The registers an instruction may write, VF as a flag among them (R22). -/
def regsWritten (p : Params) : Instr → List Nibble
  | .cls => []
  | .ret => []
  | .jp _ => []
  | .call _ => []
  | .seVxNn _ _ => []
  | .sneVxNn _ _ => []
  | .seVxVy _ _ => []
  | .ldVxNn x _ => [x]
  | .addVxNn x _ => [x]
  | .ldVxVy x _ => [x]
  | .orVxVy x _ => [x]
  | .andVxVy x _ => [x]
  | .xorVxVy x _ => [x]
  | .addVxVy x _ => [x, 0xF#4]
  | .subVxVy x _ => [x, 0xF#4]
  | .shr x _ => [x, 0xF#4]
  | .shl x _ => [x, 0xF#4]
  | .sneVxVy _ _ => []
  | .ldI _ => []
  | .jpV0 _ => []
  | .jpVx _ _ => []
  | .rnd x _ => [x]
  | .drw _ _ _ => [0xF#4]
  | .ldVxDt x => [x]
  | .ldDtVx _ => []
  | .ldStVx _ => []
  | .unsettled8xy7 x _ => if p.op8xy7 = .subN then [x, 0xF#4] else []
  | .unsettledFx1e _ => []
  | .unsettledF0N0 _ => []
  | .unsettledF0Ne _ => []
  | .unknown _ => []

/-- The instructions that may raise a fatal error at the execute stage (R220). -/
def mayRaise (p : Params) : Instr → Bool
  | .cls => false
  | .ret => true
  | .jp _ => false
  | .call _ => true
  | .seVxNn _ _ => false
  | .sneVxNn _ _ => false
  | .seVxVy _ _ => false
  | .ldVxNn _ _ => false
  | .addVxNn _ _ => false
  | .ldVxVy _ _ => false
  | .orVxVy _ _ => false
  | .andVxVy _ _ => false
  | .xorVxVy _ _ => false
  | .addVxVy _ _ => false
  | .subVxVy _ _ => false
  | .shr _ _ => false
  | .shl _ _ => false
  | .sneVxVy _ _ => false
  | .ldI _ => false
  | .jpV0 _ => true
  | .jpVx _ _ => true
  | .rnd _ _ => false
  | .drw _ _ _ => true
  | .ldVxDt _ => false
  | .ldDtVx _ => false
  | .ldStVx _ => false
  | .unsettled8xy7 _ _ => p.op8xy7 == .unsettled
  | .unsettledFx1e _ => p.opFx1e == .unsettled
  | .unsettledF0N0 _ => true
  | .unsettledF0Ne _ => true
  | .unknown _ => false

/-- The sprite of R191 as a picture laid at (ox, oy) with no wrap: the bit it has at column px,
row py. Byte i + r is row oy + r, and bit 7 is column ox (R195). -/
def State.spriteBit (s : State) (ox oy n px py : Nat) : Bool :=
  decide (ox ≤ px ∧ px < ox + 8 ∧ oy ≤ py ∧ py < oy + n) &&
    (Memory.read s.mem (s.i.toNat + (py - oy))).getLsbD (7 - (px - ox))

/-- The same picture on a torus (R192 Wrap): the bit that lands on column px, row py. -/
def State.spriteBitWrapped (s : State) (ox oy n px py : Nat) : Bool :=
  let dx := (px + s.params.width - ox) % s.params.width
  let dy := (py + s.params.height - oy) % s.params.height
  decide (dx < 8 ∧ dy < n) && (Memory.read s.mem (s.i.toNat + dy)).getLsbD (7 - dx)

/-- How many set bits of the sprite of R191 land on column px, row py of a torus (R192 Wrap):
more than one where the sprite is wider or higher than the framebuffer. -/
def State.spriteHits (s : State) (ox oy n px py : Nat) : Nat :=
  (List.range n).foldr (fun r total => total + (List.range 8).countP fun c =>
    (Memory.read s.mem (s.i.toNat + r)).getLsbD (7 - c) &&
      decide ((ox + c) % s.params.width = px ∧ (oy + r) % s.params.height = py)) 0

/-- Every sprite byte lies in memory (R56). -/
def State.spriteInMemory (s : State) (n : Nat) : Prop :=
  ∀ r, r < n → s.i.toNat + r < s.params.memSize

/-- Every sprite position lies inside the framebuffer (R191). -/
def State.spriteInside (s : State) (ox oy n : Nat) : Prop :=
  0 < n → ox + 7 < s.params.width ∧ oy + n - 1 < s.params.height

end Sys2Proof.Machine
end

