-- ==== Sys2Proof/Certificates/Slice0/Obligations.lean ====
section
/-! DEFINITION. The statements for the provers, from the numbered rules of spec/. -/

open Sys2Proof Sys2Proof.Machine

/-! ## Reset, invariant, cycle -/

/-- R37: the value reset leaves in every field, for every image, mode and legal or illegal
parameters; the default `P_ROM_BASE` is 0x200. `draws` is the model's own (log entry 4). -/
def Obligations.ResetLeavesTheResetTable : Prop :=
  (∀ (p : Params) (image : Memory) (c : Compat) (d : Nat),
    (∀ r, (State.resetWith p image c d).getReg r = 0) ∧
    (State.resetWith p image c d).pc = p.romBase ∧
    (State.resetWith p image c d).i = 0 ∧
    (State.resetWith p image c d).stack = [] ∧
    (State.resetWith p image c d).dt = 0 ∧
    (State.resetWith p image c d).st = 0 ∧
    (State.resetWith p image c d).gfx.length = p.height * p.width ∧
    (∀ x y, (State.resetWith p image c d).pixel x y = false) ∧
    (∀ a, Memory.read (State.resetWith p image c d).mem a = Memory.read image a) ∧
    (State.resetWith p image c d).compat = c ∧
    (State.resetWith p image c d).halted = false ∧
    (State.resetWith p image c d).fault = .none) ∧
  Params.default.romBase = 0x200#16

/-- The invariant holds after every reset with legal parameters and a legal image, and in
`State.reset` (whose empty image and Original mode are the model's choice, log entries 5, 6). -/
def Obligations.ResetStateMeetsTheInvariant : Prop :=
  (∀ (p : Params) (image : Memory) (c : Compat) (d : Nat), p.wf → Memory.wf image →
    (∀ cell ∈ image, cell.1 < p.memSize) → (State.resetWith p image c d).Inv) ∧
  State.reset.Inv

/-- Every step from a state that meets the invariant leads to one that does. -/
def Obligations.EveryStepKeepsTheInvariant : Prop :=
  ∀ s t : State, s.Inv → step s = .next t → t.Inv

/-- Every sequence of cycles and legal host moves keeps the invariant, and none of them is
stopped by the model. -/
def Obligations.EveryMoveSequenceKeepsTheInvariant : Prop :=
  ∀ (ms : List Move) (s : State), s.Inv → (∀ h, Move.host h ∈ ms → h.legal s.params) →
    ∃ t, applyMoves ms s = .next t ∧ t.Inv ∧ t.params = s.params

/-- R101, R102: a running core fetches the big-endian word at `pc` (odd or even) and executes
what it decodes to with `pc` advanced by 2 modulo 2^16 (the `result` field shows Ok until the
execution says otherwise, R100, log entry 3); if a byte is missing it raises FETCH_OUT_OF_BOUNDS
before advancing. -/
def Obligations.CycleFetchesAdvancesAndExecutes : Prop :=
  ∀ s : State, s.running →
    (s.pc.toNat + 1 < s.params.memSize →
      ∃ hi lo w adv, s.fetches hi lo ∧ w.toNat = 256 * hi.toNat + lo.toNat ∧
        adv.toNat = (s.pc.toNat + 2) % 65536 ∧
        step s = exec (decode s.params s.compat w) { s with pc := adv, result := some .ok }) ∧
    (s.params.memSize ≤ s.pc.toNat + 1 →
      step s = .next { s with
        halted := true, fault := .fetchOutOfBounds, result := some (.fatal .fetchOutOfBounds) })

/-- A step runs the decoded instruction: when the bytes at `pc` are those of a well-formed
instruction, the step is its execution at the advanced state. -/
def Obligations.StepRunsTheEncodedInstruction : Prop :=
  ∀ (s : State) (i : Instr) (hi lo : Byte), s.running → i.wf s.params s.compat = true →
    s.fetches hi lo → encodeBytes i = [hi, lo] →
    step s = exec i { s with pc := s.pc + 2, result := some .ok }

/-- A word placed by `withFetchWord` is the one the next step runs. -/
def Obligations.LoadedWordRunsNext : Prop :=
  ∀ (s : State) (w : Word), s.running → Memory.wf s.mem → s.pc.toNat + 1 < s.params.memSize →
    step (s.withFetchWord 16 w.toNat) =
      exec (decode s.params s.compat w)
        { s.withFetchWord 16 w.toNat with pc := s.pc + 2, result := some .ok }

/-- R108: a step request to a halted core changes nothing; that it produces no result is the
`result` field's value none (the model's representation, log entry 3). -/
def Obligations.HaltedCoreIgnoresStepRequests : Prop :=
  ∀ s : State, s.params.wf → s.halted = true → step s = .next { s with result := none }

/-- R229: every cycle of a running core answers, with exactly one outcome; the core is halted
afterwards exactly when that outcome is fatal, and then `fault` holds the reported code. -/
def Obligations.EveryCycleReportsOneOutcome : Prop :=
  ∀ s : State, s.running → ∃ t, step s = .next t ∧
    ((t.result = some .ok ∧ t.halted = false ∧ t.fault = s.fault) ∨
     (∃ w, t.result = some (.warn w) ∧ t.halted = false ∧ t.fault = s.fault) ∨
     (∃ code, code ≠ .none ∧ t.result = some (.fatal code) ∧ t.halted = true ∧
       t.fault = code))

/-- R221: a fatal error performs nothing of the instruction, keeps `pc` (the fetch address for
FETCH_OUT_OF_BOUNDS, the post-fetch value otherwise), records and reports the code, and no
number of later step requests changes the core. -/
def Obligations.FatalErrorIsPrecise : Prop :=
  ∀ s t : State, s.running → step s = .next t → t.halted = true →
    (∃ code, code ≠ .none ∧
      t = { s with
        pc := if code = .fetchOutOfBounds then s.pc else s.pc + 2
        halted := true, fault := code, result := some (.fatal code) }) ∧
    ∀ n, ∃ u, Host.Core.run Sys2Proof.core n t = .next u ∧ u = { t with result := u.result }

/-- No step changes a byte of memory (R53) or the mode (R253); and none changes the parameters,
which the model holds in State (log entry 1, from R11). -/
def Obligations.StepKeepsMemoryModeAndParameters : Prop :=
  ∀ s t : State, step s = .next t →
    (∀ a, t.memRead a = s.memRead a) ∧ t.compat = s.compat ∧ t.params = s.params

/-- R60 (derived by the spec from R59): every read during a run, whatever the host does between
cycles short of a reset, returns the byte the reset image holds. -/
def Obligations.MemoryReadsTheResetImage : Prop :=
  ∀ (ms : List Move) (p : Params) (image : Memory) (c : Compat) (d : Nat) (t : State),
    (∀ m ∈ ms, m.isReset = false) →
    applyMoves ms (State.resetWith p image c d) = .next t →
    ∀ a, t.memRead a = if a < p.memSize then some (Memory.read image a) else none

/-! ## Decode and encode -/

/-- Decoding the word of a well-formed instruction gives it back, for every instruction, every
value of its operands, all parameters and both modes. -/
def Obligations.DecodeOfEncodeIsTheInstruction : Prop :=
  ∀ (p : Params) (c : Compat) (i : Instr), i.wf p c = true → decode p c (encode i) = i

/-- Encoding what a word decodes to gives the word back, but for the ignored last nibble of
families 5 and 9 and the readings of family 0 that map several words to CLS and RET. -/
def Obligations.EncodeOfDecodeIsTheWord : Prop :=
  ∀ (p : Params) (c : Compat) (w : Word),
    (fieldFirst w = 0x0#4 → p.f0Decode = .unsettled ∨ p.f0Decode = .exact) →
    fieldFirst w ≠ 0x5#4 → fieldFirst w ≠ 0x9#4 → encode (decode p c w) = w

/-- Every word decodes to a well-formed instruction. -/
def Obligations.DecodedInstructionsAreWellFormed : Prop :=
  ∀ (p : Params) (c : Compat) (w : Word), (decode p c w).wf p c = true

/-- R83: the words that decode to UNKNOWN, and that UNKNOWN carries its own word. -/
def Obligations.UnknownWordsDecodeToUnknown : Prop :=
  ∀ (p : Params) (c : Compat) (w w' : Word),
    decode p c w = .unknown w' ↔ (unknownWord p w = true ∧ w' = w)

/-- R71: only in family B under `P_B_DECODE = ByMode` can the mode change what a word decodes
to. -/
def Obligations.ModeChangesDecodingOnlyInFamilyB : Prop :=
  ∀ (p : Params) (w : Word), decode p .original w ≠ decode p .new w →
    fieldFirst w = 0xB#4 ∧ p.bDecode = .byMode

/-- R80: 5XYN is SE_VX_VY and 9XYN is SNE_VX_VY for every N. -/
def Obligations.LastNibbleOfFamilies5And9IsIgnored : Prop :=
  ∀ (p : Params) (c : Compat) (x y n : Nibble),
    decode p c (0x5#4 ++ x ++ y ++ n) = .seVxVy x y ∧
    decode p c (0x9#4 ++ x ++ y ++ n) = .sneVxVy x y

/-- R76: the family-0 words under each value of `P_F0_DECODE`. -/
def Obligations.Family0FollowsItsParameter : Prop :=
  ∀ (p : Params) (c : Compat) (w : Word), w.toNat < 0x1000 →
    (p.f0Decode = .unsettled →
      (w.toNat = 0xE0 → decode p c w = .cls) ∧ (w.toNat = 0xEE → decode p c w = .ret) ∧
      (w.toNat ≠ 0xE0 → w.toNat % 16 = 0x0 →
        decode p c w = .unsettledF0N0 (BitVec.ofNat 8 (w.toNat / 16))) ∧
      (w.toNat ≠ 0xEE → w.toNat % 16 = 0xE →
        decode p c w = .unsettledF0Ne (BitVec.ofNat 8 (w.toNat / 16))) ∧
      (w.toNat % 16 ≠ 0x0 → w.toNat % 16 ≠ 0xE → decode p c w = .unknown w)) ∧
    (p.f0Decode = .exact →
      (w.toNat = 0xE0 → decode p c w = .cls) ∧ (w.toNat = 0xEE → decode p c w = .ret) ∧
      (w.toNat ≠ 0xE0 → w.toNat ≠ 0xEE → decode p c w = .unknown w)) ∧
    (p.f0Decode = .lastByte →
      (w.toNat % 256 = 0xE0 → decode p c w = .cls) ∧
      (w.toNat % 256 = 0xEE → decode p c w = .ret) ∧
      (w.toNat % 256 ≠ 0xE0 → w.toNat % 256 ≠ 0xEE → decode p c w = .unknown w)) ∧
    (p.f0Decode = .lastNibble →
      (w.toNat % 16 = 0x0 → decode p c w = .cls) ∧
      (w.toNat % 16 = 0xE → decode p c w = .ret) ∧
      (w.toNat % 16 ≠ 0x0 → w.toNat % 16 ≠ 0xE → decode p c w = .unknown w))

/-- R78, R74: family B under each value of `P_B_DECODE`; the address of BXNN holds the X
nibble. -/
def Obligations.FamilyBFollowsItsParameter : Prop :=
  ∀ (p : Params) (c : Compat) (x : Nibble) (nn : Byte),
    (p.bDecode = .byXNibble →
      decode p c (0xB#4 ++ 0x0#4 ++ nn) = .jpV0 (0x0#4 ++ nn) ∧
      (x ≠ 0x0#4 → decode p c (0xB#4 ++ x ++ nn) = .jpVx x (x ++ nn))) ∧
    (p.bDecode = .byMode →
      decode p .original (0xB#4 ++ x ++ nn) = .jpV0 (x ++ nn) ∧
      decode p .new (0xB#4 ++ x ++ nn) = .jpVx x (x ++ nn))

/-- The rows 8XY7 (R77) and FX1E (R79): UNKNOWN under the value Unknown of their parameter. Under
the other values the model answers the row's own instruction, whose meaning follows the
parameter, where R77 and R79 say UNSETTLED, SUBN and ADD_I (log entry 9). -/
def Obligations.ParameterRowsDecodeByTheirParameter : Prop :=
  ∀ (p : Params) (c : Compat) (x y : Nibble),
    decode p c (0x8#4 ++ x ++ y ++ 0x7#4) =
      (if p.op8xy7 = .unknown then .unknown (0x8#4 ++ x ++ y ++ 0x7#4)
        else .unsettled8xy7 x y) ∧
    decode p c (0xF#4 ++ x ++ 0x1E#8) =
      (if p.opFx1e = .unknown then .unknown (0xF#4 ++ x ++ 0x1E#8) else .unsettledFx1e x)

/-- Words written out from the encodings of R75 to R79, under the default parameters. -/
def Obligations.SampleWordsDecodeAsTheTableSays : Prop :=
  decode Params.default .original 0b0000000011100000#16 = .cls ∧
  decode Params.default .original 0b0000000011101110#16 = .ret ∧
  decode Params.default .original 0b0010000100100011#16 = .call 0x123#12 ∧
  decode Params.default .original 0b0011001101000010#16 = .seVxNn 0x3#4 0x42#8 ∧
  decode Params.default .original 0b1000000000010100#16 = .addVxVy 0x0#4 0x1#4 ∧
  decode Params.default .original 0b1000000000011110#16 = .shl 0x0#4 0x1#4 ∧
  decode Params.default .original 0b1011001011110000#16 = .jpVx 0x2#4 0x2F0#12 ∧
  decode Params.default .original 0b1011000011110000#16 = .jpV0 0x0F0#12 ∧
  decode Params.default .original 0b1101000100101111#16 = .drw 0x1#4 0x2#4 0xF#4 ∧
  decode Params.default .original 0b1111010100010101#16 = .ldDtVx 0x5#4 ∧
  decode Params.default .original 0b1110000010011110#16 = .unknown 0xE09E#16

/-! ## Unknown and unsettled words -/

/-- R106: a fetched word the decoder does not know is a no-op that reports the whole word;
`pc` keeps its post-fetch value and the core does not halt. -/
def Obligations.UnknownWordIsANoOpWithAWarning : Prop :=
  (∀ (s : State) (hi lo : Byte), s.running → s.fetches hi lo →
    unknownWord s.params (hi ++ lo) = true →
    step s = .next { s with pc := s.pc + 2, result := some (.warn (hi ++ lo)) }) ∧
  ∀ (s : State) (w : Word), exec (.unknown w) s = .next { s with result := some (.warn w) }

/-- R107: a fetched unsettled word writes nothing and raises UNSETTLED_ENCODING with `pc` at its
post-fetch value. At the execute stage the two family-0 rows do so under every `P_F0_DECODE`
and for every `mid`, which is the model's choice (log entry 9). -/
def Obligations.UnsettledWordRaisesUnsettledEncoding : Prop :=
  (∀ (s : State) (hi lo : Byte), s.running → s.fetches hi lo →
    unsettledWord s.params (hi ++ lo) = true →
    step s = .next { s with
      pc := s.pc + 2, halted := true, fault := .unsettledEncoding
      result := some (.fatal .unsettledEncoding) }) ∧
  ∀ (s : State) (mid : Byte),
    exec (.unsettledF0N0 mid) s = .next { s with
      halted := true, fault := .unsettledEncoding
      result := some (.fatal .unsettledEncoding) } ∧
    exec (.unsettledF0Ne mid) s = .next { s with
      halted := true, fault := .unsettledEncoding
      result := some (.fatal .unsettledEncoding) }

/-- R162 (the spec's own reading, from general knowledge: D8) and the three values of `P_8XY7`:
SUBN subtracts V[x] from V[y] modulo 256 with VF = no borrow, written last; Unsettled is the
fatal error. Under Unknown the decoder never answers this instruction; that it is the
warning no-op at the execute stage is the model's choice (log entry 9). -/
def Obligations.Op8xy7FollowsItsParameter : Prop :=
  ∀ (s : State) (x y : Nibble),
    (s.params.op8xy7 = .subN → ∃ t, exec (.unsettled8xy7 x y) s = .next t ∧
      s.onlyRegs t [x, 0xF#4] ∧
      (x ≠ 0xF#4 → (t.getReg x).toNat =
        (256 + (s.getReg y).toNat - (s.getReg x).toNat) % 256) ∧
      t.getReg 0xF#4 = if (s.getReg x).toNat ≤ (s.getReg y).toNat then 1 else 0) ∧
    (s.params.op8xy7 = .unknown → exec (.unsettled8xy7 x y) s = .next { s with
      result := some (.warn (0x8#4 ++ x ++ y ++ 0x7#4)) }) ∧
    (s.params.op8xy7 = .unsettled → exec (.unsettled8xy7 x y) s = .next { s with
      halted := true, fault := .unsettledEncoding
      result := some (.fatal .unsettledEncoding) })

/-- R213 (the spec's own reading, from general knowledge: D9) and the three values of `P_FX1E`:
ADD I adds V[x] to `i` modulo 2^16 and touches no flag; Unsettled is the fatal error. Under
Unknown the decoder never answers this instruction; that it is the warning no-op at the
execute stage is the model's choice (log entry 9). -/
def Obligations.OpFx1eFollowsItsParameter : Prop :=
  ∀ (s : State) (x : Nibble),
    (s.params.opFx1e = .addI → ∃ t, exec (.unsettledFx1e x) s = .next t ∧
      t = { s with i := t.i } ∧ t.i.toNat = (s.i.toNat + (s.getReg x).toNat) % 65536 ∧
      ∀ a, t.memRead a = s.memRead a) ∧
    (s.params.opFx1e = .unknown → exec (.unsettledFx1e x) s = .next { s with
      result := some (.warn (0xF#4 ++ x ++ 0x1E#8)) }) ∧
    (s.params.opFx1e = .unsettled → exec (.unsettledFx1e x) s = .next { s with
      halted := true, fault := .unsettledEncoding
      result := some (.fatal .unsettledEncoding) })

/-! ## Control flow -/

/-- R120: RET raises STACK_UNDERFLOW on an empty stack, and else takes the most recently
pushed entry off the stack into `pc`, as it is; nothing else changes. -/
def Obligations.ReturnPopsOrUnderflows : Prop :=
  ∀ s : State,
    (s.stack = [] → exec .ret s = .next { s with
      halted := true, fault := .stackUnderflow
      result := some (.fatal .stackUnderflow) }) ∧
    ∀ a rest, s.stack = a :: rest → exec .ret s = .next { s with pc := a, stack := rest }

/-- R121: JP sets `pc` to the zero-extended address, odd or even, and changes nothing else. -/
def Obligations.JumpSetsThePc : Prop :=
  ∀ (s : State) (nnn : Addr), ∃ t, exec (.jp nnn) s = .next t ∧ t = { s with pc := t.pc } ∧
    t.pc.toNat = nnn.toNat ∧
    (s.running → s.params.memSize ≤ nnn.toNat + 1 → step t = .next { t with
      halted := true, fault := .fetchOutOfBounds
      result := some (.fatal .fetchOutOfBounds) })

/-- R122: CALL pushes the post-fetch `pc` and jumps; at a set limit it raises STACK_OVERFLOW. -/
def Obligations.CallPushesTheReturnAddress : Prop :=
  ∀ (s : State) (nnn : Addr),
    (s.params.stackLimit ≠ some s.stack.length → ∃ t, exec (.call nnn) s = .next t ∧
      t = { s with pc := t.pc, stack := s.pc :: s.stack } ∧ t.pc.toNat = nnn.toNat) ∧
    (s.params.stackLimit = some s.stack.length → exec (.call nnn) s = .next { s with
      halted := true, fault := .stackOverflow
      result := some (.fatal .stackOverflow) })

/-- A CALL that is not at the limit, then a RET, is a no-op on the whole state. -/
def Obligations.ReturnUndoesCall : Prop :=
  ∀ (s : State) (nnn : Addr), s.params.stackLimit ≠ some s.stack.length →
    ∃ t, exec (.call nnn) s = .next t ∧ exec .ret t = .next s

/-- R123 to R126: each skip adds 2 to the post-fetch `pc`, modulo 2^16, exactly when its
condition holds, and changes nothing else. -/
def Obligations.SkipsAddTwoWhenTheirConditionHolds : Prop :=
  ∀ (s : State) (x y : Nibble) (nn : Byte),
    exec (.seVxNn x nn) s =
      .next { s with pc := if s.getReg x = nn then s.pc + 2#16 else s.pc } ∧
    exec (.sneVxNn x nn) s =
      .next { s with pc := if s.getReg x = nn then s.pc else s.pc + 2#16 } ∧
    exec (.seVxVy x y) s =
      .next { s with pc := if s.getReg x = s.getReg y then s.pc + 2#16 else s.pc } ∧
    exec (.sneVxVy x y) s =
      .next { s with pc := if s.getReg x = s.getReg y then s.pc else s.pc + 2#16 }

/-- R127, R128, R129: BNNN jumps to nnn + V0 in Original mode and BXNN to nnn + V[x] in New
mode, with no wrap; each raises CONFIG_MISMATCH in the other mode. -/
def Obligations.JumpWithOffsetBehindItsGate : Prop :=
  ∀ (s : State) (x : Nibble) (nnn : Addr),
    (s.compat = .original → ∃ t, exec (.jpV0 nnn) s = .next t ∧ t = { s with pc := t.pc } ∧
      t.pc.toNat = nnn.toNat + (s.getReg 0x0#4).toNat) ∧
    (s.compat = .new → exec (.jpV0 nnn) s = .next { s with
      halted := true, fault := .configMismatch
      result := some (.fatal .configMismatch) }) ∧
    (s.compat = .new → ∃ t, exec (.jpVx x nnn) s = .next t ∧ t = { s with pc := t.pc } ∧
      t.pc.toNat = nnn.toNat + (s.getReg x).toNat) ∧
    (s.compat = .original → exec (.jpVx x nnn) s = .next { s with
      halted := true, fault := .configMismatch
      result := some (.fatal .configMismatch) })

/-- With a memory of at most 4096 bytes, `pc` never passes 0x10FE (R25) and no return address
passes `P_MEM_SIZE` (R131), both derived by the spec: every step keeps both. -/
def Obligations.PcNeverPasses10FE : Prop :=
  ∀ s t : State, s.params.memSize ≤ 4096 → s.pc.toNat ≤ 0x10FE →
    (∀ a ∈ s.stack, a.toNat ≤ s.params.memSize) → step s = .next t →
    t.pc.toNat ≤ 0x10FE ∧ ∀ a ∈ t.stack, a.toNat ≤ t.params.memSize

/-! ## Register ALU, index register, random byte -/

/-- R151, R153: the load of a constant and the copy. -/
def Obligations.LoadsSetTheirDestination : Prop :=
  ∀ (s : State) (x y : Nibble) (nn : Byte),
    (∃ t, exec (.ldVxNn x nn) s = .next t ∧ s.onlyRegs t [x] ∧ t.getReg x = nn) ∧
    (∃ t, exec (.ldVxVy x y) s = .next t ∧ s.onlyRegs t [x] ∧ t.getReg x = s.getReg y)

/-- R152: ADD Vx, byte wraps modulo 256; VF changes only as the destination. -/
def Obligations.AddConstantWrapsWithoutFlag : Prop :=
  ∀ (s : State) (x : Nibble) (nn : Byte), ∃ t, exec (.addVxNn x nn) s = .next t ∧
    s.onlyRegs t [x] ∧ (t.getReg x).toNat = ((s.getReg x).toNat + nn.toNat) % 256

/-- R154, R155, R156: the bitwise operations, bit by bit; VF changes only as the destination. -/
def Obligations.LogicActsBitwiseWithoutFlag : Prop :=
  ∀ (s : State) (x y : Nibble),
    (∃ t, exec (.orVxVy x y) s = .next t ∧ s.onlyRegs t [x] ∧
      ∀ k, (t.getReg x).getLsbD k = ((s.getReg x).getLsbD k || (s.getReg y).getLsbD k)) ∧
    (∃ t, exec (.andVxVy x y) s = .next t ∧ s.onlyRegs t [x] ∧
      ∀ k, (t.getReg x).getLsbD k = ((s.getReg x).getLsbD k && (s.getReg y).getLsbD k)) ∧
    (∃ t, exec (.xorVxVy x y) s = .next t ∧ s.onlyRegs t [x] ∧
      ∀ k, (t.getReg x).getLsbD k = Bool.xor ((s.getReg x).getLsbD k) ((s.getReg y).getLsbD k))

/-- R157: 8XY4 adds modulo 256 and leaves the carry in VF, also when VF is the destination. -/
def Obligations.AddLeavesTheCarryInVF : Prop :=
  ∀ (s : State) (x y : Nibble), ∃ t, exec (.addVxVy x y) s = .next t ∧
    s.onlyRegs t [x, 0xF#4] ∧
    (x ≠ 0xF#4 → (t.getReg x).toNat = ((s.getReg x).toNat + (s.getReg y).toNat) % 256) ∧
    t.getReg 0xF#4 = if 0xFF < (s.getReg x).toNat + (s.getReg y).toNat then 1 else 0

/-- R158: 8XY5 subtracts modulo 256 and leaves 1 in VF when no borrow occurred and 0 when one did,
also when VF is the destination. That equal operands borrow nothing is an inference R158
marks as the spec's own (D15). -/
def Obligations.SubtractLeavesNoBorrowInVF : Prop :=
  ∀ (s : State) (x y : Nibble), ∃ t, exec (.subVxVy x y) s = .next t ∧
    s.onlyRegs t [x, 0xF#4] ∧
    (x ≠ 0xF#4 →
      (t.getReg x).toNat = (256 + (s.getReg x).toNat - (s.getReg y).toNat) % 256) ∧
    t.getReg 0xF#4 = if (s.getReg y).toNat ≤ (s.getReg x).toNat then 1 else 0

/-- R159, R160, R161: the shifts by one of V[y] in Original mode and of V[x] in New mode, with
the bit shifted out in VF, also when VF is the destination. -/
def Obligations.ShiftsTakeTheirSourceFromTheMode : Prop :=
  ∀ (s : State) (x y : Nibble) (src : Byte),
    src = (if s.compat = .original then s.getReg y else s.getReg x) →
    (∃ t, exec (.shr x y) s = .next t ∧ s.onlyRegs t [x, 0xF#4] ∧
      (x ≠ 0xF#4 → (t.getReg x).toNat = src.toNat / 2) ∧
      (t.getReg 0xF#4).toNat = src.toNat % 2) ∧
    (∃ t, exec (.shl x y) s = .next t ∧ s.onlyRegs t [x, 0xF#4] ∧
      (x ≠ 0xF#4 → (t.getReg x).toNat = 2 * src.toNat % 256) ∧
      (t.getReg 0xF#4).toNat = src.toNat / 128)

/-- R163: LD I sets `i` to the zero-extended address and changes nothing else. -/
def Obligations.LoadIndexSetsI : Prop :=
  ∀ (s : State) (nnn : Addr), ∃ t, exec (.ldI nnn) s = .next t ∧ t = { s with i := t.i } ∧
    t.i.toNat = nnn.toNat ∧ ∀ a, t.memRead a = s.memRead a

/-- R164: RND writes the drawn byte masked by nn and no flag; every byte can be drawn (the one
on the `rand_byte` port); a byte not supplied is the free value of the model's draw counter
(log entry 4), and each draw takes the port's byte and moves to the next free value. -/
def Obligations.RandomByteIsMaskedAndFree : Prop :=
  ∀ (s : State) (x : Nibble) (nn : Byte),
    (∀ r, s.randPort = some r → ∃ t, exec (.rnd x nn) s = .next t ∧ t.getReg x = r &&& nn) ∧
    ∃ t, exec (.rnd x nn) s = .next t ∧
      t = { s with v := t.v, randPort := none, draws := s.draws + 1 } ∧
      (∀ q, q ≠ x → t.getReg q = s.getReg q) ∧
      t.getReg x = s.randPort.getD (Config.randByte s.draws) &&& nn ∧
      ∀ a, t.memRead a = s.memRead a

/-- Without the FX1E option `i` never passes 0x0FFF (R31, derived by the spec): every step keeps
the bound. -/
def Obligations.IndexStaysIn12Bits : Prop :=
  ∀ s t : State, s.params.opFx1e ≠ .addI → s.i.toNat ≤ 0x0FFF → step s = .next t →
    t.i.toNat ≤ 0x0FFF

/-- R27: every instruction that defines VF as a flag leaves 0 or 1 in it, unless it ends in a
fatal error. -/
def Obligations.FlagsAreZeroOrOne : Prop :=
  ∀ (s t : State) (i : Instr) (x y n : Nibble),
    (i = .addVxVy x y ∨ i = .subVxVy x y ∨ i = .shr x y ∨ i = .shl x y ∨ i = .drw x y n) →
    exec i s = .next t → t.halted = false → t.getReg 0xF#4 = 0 ∨ t.getReg 0xF#4 = 1

/-! ## Display -/

/-- R190: CLS turns every pixel off, keeps the framebuffer's size and changes nothing else; on
a framebuffer already off it changes nothing. -/
def Obligations.ClearTurnsEveryPixelOff : Prop :=
  ∀ s : State, s.gfx.length = s.params.height * s.params.width →
    ∃ t, exec .cls s = .next t ∧ t = { s with gfx := t.gfx } ∧
      t.gfx.length = s.gfx.length ∧ (∀ x y, t.pixel x y = false) ∧
      (∀ a, t.memRead a = s.memRead a) ∧
      ((∀ x y, x < s.params.width → y < s.params.height → s.pixel x y = false) → t = s)

/-- R191, R195: a draw whose sprite bytes lie in memory and whose positions lie inside the
framebuffer (or past it under Clip) XORs the sprite's picture into the framebuffer, leaves
in VF whether a pixel went from on to off, and changes nothing else. -/
def Obligations.DrawXorsTheSprite : Prop :=
  ∀ (s : State) (x y n : Nibble) (ox oy : Nat), s.params.wf →
    s.gfx.length = s.params.height * s.params.width →
    ox = (s.getReg x).toNat % s.params.width → oy = (s.getReg y).toNat % s.params.height →
    s.spriteInMemory n.toNat →
    (s.spriteInside ox oy n.toNat ∨ s.params.drawEdge = .clip) →
    ∃ t, exec (.drw x y n) s = .next t ∧ s.onlyRegsAndGfx t [0xF#4] ∧
      (∀ px py, px < s.params.width → py < s.params.height →
        t.pixel px py = Bool.xor (s.pixel px py) (s.spriteBit ox oy n.toNat px py)) ∧
      (t.getReg 0xF#4 = 0 ∨ t.getReg 0xF#4 = 1) ∧
      (t.getReg 0xF#4 = 1 ↔ ∃ px py, px < s.params.width ∧ py < s.params.height ∧
        s.pixel px py = true ∧ t.pixel px py = false)

/-- R192 under Wrap, with a framebuffer no sprite overlaps itself on: the sprite's picture on
the torus is XORed into the framebuffer. -/
def Obligations.DrawWrapsOnTheTorus : Prop :=
  ∀ (s : State) (x y n : Nibble) (ox oy : Nat), s.params.wf → s.params.drawEdge = .wrap →
    8 ≤ s.params.width → n.toNat ≤ s.params.height →
    s.gfx.length = s.params.height * s.params.width →
    ox = (s.getReg x).toNat % s.params.width → oy = (s.getReg y).toNat % s.params.height →
    s.spriteInMemory n.toNat →
    ∃ t, exec (.drw x y n) s = .next t ∧ s.onlyRegsAndGfx t [0xF#4] ∧
      (∀ px py, px < s.params.width → py < s.params.height →
        t.pixel px py = Bool.xor (s.pixel px py) (s.spriteBitWrapped ox oy n.toNat px py)) ∧
      (t.getReg 0xF#4 = 0 ∨ t.getReg 0xF#4 = 1) ∧
      (t.getReg 0xF#4 = 1 ↔ ∃ px py, px < s.params.width ∧ py < s.params.height ∧
        s.pixel px py = true ∧ t.pixel px py = false)

/-- R192 under Wrap for every framebuffer, however small: a pixel is flipped once for every set
sprite bit that lands on it, and a collision is a pixel hit while it was on, which it is at
the first hit if it was on before the draw, and at a second hit if it was not. -/
def Obligations.DrawWrapsOntoSmallFramebuffers : Prop :=
  ∀ (s : State) (x y n : Nibble) (ox oy : Nat), s.params.wf → s.params.drawEdge = .wrap →
    s.gfx.length = s.params.height * s.params.width →
    ox = (s.getReg x).toNat % s.params.width → oy = (s.getReg y).toNat % s.params.height →
    s.spriteInMemory n.toNat →
    ∃ t, exec (.drw x y n) s = .next t ∧ s.onlyRegsAndGfx t [0xF#4] ∧
      (∀ px py, px < s.params.width → py < s.params.height →
        t.pixel px py =
          Bool.xor (s.pixel px py) (decide (s.spriteHits ox oy n.toNat px py % 2 = 1))) ∧
      (t.getReg 0xF#4 = 0 ∨ t.getReg 0xF#4 = 1) ∧
      (t.getReg 0xF#4 = 1 ↔ ∃ px py, px < s.params.width ∧ py < s.params.height ∧
        (s.pixel px py = true ∧ 1 ≤ s.spriteHits ox oy n.toNat px py ∨
          2 ≤ s.spriteHits ox oy n.toNat px py))

/-- A draw completes, with its frame and a flag of 0 or 1, for every framebuffer and every
`P_DRAW_EDGE`, whenever its bytes lie in memory and the edge check does not refuse it. -/
def Obligations.DrawCompletes : Prop :=
  ∀ (s : State) (x y n : Nibble), s.spriteInMemory n.toNat →
    (s.params.drawEdge = .fault → s.spriteInside ((s.getReg x).toNat % s.params.width)
      ((s.getReg y).toNat % s.params.height) n.toNat) →
    ∃ t, exec (.drw x y n) s = .next t ∧ s.onlyRegsAndGfx t [0xF#4] ∧
      (t.getReg 0xF#4 = 0 ∨ t.getReg 0xF#4 = 1)

/-- R230 (and R56): all sprite addresses are checked before the edge; a byte past memory raises
MEM_READ_OUT_OF_BOUNDS, and else a position past an edge under Fault, whatever its bit, raises
DRAW_OUT_OF_BOUNDS. That an address i + r past 0xFFFF is a byte past memory, and does not
wrap, is the model's reading (log entry 7). -/
def Obligations.DrawChecksMemoryBeforeTheEdge : Prop :=
  ∀ (s : State) (x y n : Nibble) (ox oy : Nat),
    ox = (s.getReg x).toNat % s.params.width → oy = (s.getReg y).toNat % s.params.height →
    (¬ s.spriteInMemory n.toNat → exec (.drw x y n) s = .next { s with
      halted := true, fault := .memReadOutOfBounds
      result := some (.fatal .memReadOutOfBounds) }) ∧
    (s.spriteInMemory n.toNat → s.params.drawEdge = .fault → 0 < n.toNat →
      (s.params.width ≤ ox + 7 ∨ s.params.height ≤ oy + n.toNat - 1) →
      exec (.drw x y n) s = .next { s with
        halted := true, fault := .drawOutOfBounds
        result := some (.fatal .drawOutOfBounds) })

/-- R194 (derived by the spec from R191): a draw of no rows writes no pixel, raises nothing and
sets VF = 0, whatever `i` and the coordinates are. -/
def Obligations.DrawOfNoRowsClearsVF : Prop :=
  ∀ (s : State) (x y : Nibble), ∃ t, exec (.drw x y 0x0#4) s = .next t ∧
    s.onlyRegs t [0xF#4] ∧ t.getReg 0xF#4 = 0

/-- Drawing the same sprite twice at one place restores the framebuffer, under every
`P_DRAW_EDGE`, and what the second draw's flag says. The place is the same whenever x and y
are not F; where one is, the second draw takes its coordinate from the first draw's flag
(R191), and the law holds if that gives the same place. -/
def Obligations.DrawingTwiceRestoresTheFramebuffer : Prop :=
  ∀ (s : State) (x y n : Nibble) (ox oy : Nat), s.params.wf →
    s.gfx.length = s.params.height * s.params.width →
    ox = (s.getReg x).toNat % s.params.width → oy = (s.getReg y).toNat % s.params.height →
    s.spriteInMemory n.toNat → (s.params.drawEdge = .fault → s.spriteInside ox oy n.toNat) →
    ∃ t, exec (.drw x y n) s = .next t ∧ (x ≠ 0xF#4 → t.getReg x = s.getReg x) ∧
      (y ≠ 0xF#4 → t.getReg y = s.getReg y) ∧
      ((t.getReg x).toNat % s.params.width = ox → (t.getReg y).toNat % s.params.height = oy →
        ∃ u, exec (.drw x y n) t = .next u ∧ u.gfx = s.gfx ∧
          (s.spriteInside ox oy n.toNat ∨ s.params.drawEdge = .clip →
            (u.getReg 0xF#4 = 1 ↔ ∃ px py, px < s.params.width ∧ py < s.params.height ∧
              s.spriteBit ox oy n.toNat px py = true ∧ s.pixel px py = false)) ∧
          (s.params.drawEdge = .wrap →
            (u.getReg 0xF#4 = 1 ↔ ∃ px py, px < s.params.width ∧ py < s.params.height ∧
              (s.spriteHits ox oy n.toNat px py = 1 ∧ s.pixel px py = false ∨
                2 ≤ s.spriteHits ox oy n.toNat px py))))

/-! ## Timers and the host -/

/-- R210, R211, R212: the timer transfers. Their directions are the spec's own, from general
knowledge (D21). -/
def Obligations.TimerTransfers : Prop :=
  ∀ (s : State) (x : Nibble),
    (∃ t, exec (.ldVxDt x) s = .next t ∧ s.onlyRegs t [x] ∧ t.getReg x = s.dt) ∧
    exec (.ldDtVx x) s = .next { s with dt := s.getReg x } ∧
    exec (.ldStVx x) s = .next { s with st := s.getReg x }

/-- R33: no step changes `dt` but FX15's, and none changes `st` but FX18's. -/
def Obligations.TimersChangeOnlyByTheirInstruction : Prop :=
  ∀ s t : State, step s = .next t →
    (t.dt ≠ s.dt → ∃ hi lo x, s.fetches hi lo ∧
      decode s.params s.compat (hi ++ lo) = .ldDtVx x ∧ t.dt = s.getReg x) ∧
    (t.st ≠ s.st → ∃ hi lo x, s.fetches hi lo ∧
      decode s.params s.compat (hi ++ lo) = .ldStVx x ∧ t.st = s.getReg x)

/-- R232: a host timer action is a write of any 8-bit value to `dt` or `st`, and FX07 reads the
current `dt`. -/
def Obligations.HostTimerActionIsSeenByFX07 : Prop :=
  ∀ (s : State) (b : Byte) (x : Nibble),
    applyMove (.host (.writeDt b)) s = .next { s with dt := b } ∧
    applyMove (.host (.writeSt b)) s = .next { s with st := b } ∧
    ∃ t u, applyMove (.host (.writeDt b)) s = .next t ∧ exec (.ldVxDt x) t = .next u ∧
      u.getReg x = b

/-! ## Rules about all instructions -/

/-- Each field of State, and the only instructions that write it at the execute stage: `v`
(R22), `pc` (R24), `i` (R31), `stack` (R32), the timers (R33), `gfx` (R34), the error status
(R29, R220), the ports; and those none writes: `mem` (R53), `compat` (R28). The clauses for
`result` (log entry 3), `randPort` and `draws` (log entry 4) and `params` (log entry 1) are
about fields the model chose. -/
def Obligations.OnlyTheNamedInstructionsWriteEachField : Prop :=
  ∀ (i : Instr) (s t : State), exec i s = .next t →
    (t.v ≠ s.v → regsWritten s.params i ≠ []) ∧
    (t.pc ≠ s.pc → i = .ret ∨ (∃ nnn, i = .jp nnn ∨ i = .call nnn ∨ i = .jpV0 nnn) ∨
      (∃ x nnn, i = .jpVx x nnn) ∨ (∃ x nn, i = .seVxNn x nn ∨ i = .sneVxNn x nn) ∨
      ∃ x y, i = .seVxVy x y ∨ i = .sneVxVy x y) ∧
    (t.i ≠ s.i → (∃ nnn, i = .ldI nnn) ∨ ∃ x, i = .unsettledFx1e x ∧ s.params.opFx1e = .addI) ∧
    (t.stack ≠ s.stack → i = .ret ∨ ∃ nnn, i = .call nnn) ∧
    (t.dt ≠ s.dt → ∃ x, i = .ldDtVx x) ∧
    (t.st ≠ s.st → ∃ x, i = .ldStVx x) ∧
    (t.gfx ≠ s.gfx → i = .cls ∨ ∃ x y n, i = .drw x y n) ∧
    (t.halted ≠ s.halted ∨ t.fault ≠ s.fault → mayRaise s.params i = true) ∧
    (t.result ≠ s.result → mayRaise s.params i = true ∨ (∃ w, i = .unknown w) ∨
      (∃ x y, i = .unsettled8xy7 x y ∧ s.params.op8xy7 = .unknown) ∨
      ∃ x, i = .unsettledFx1e x ∧ s.params.opFx1e = .unknown) ∧
    (t.randPort ≠ s.randPort ∨ t.draws ≠ s.draws → ∃ x nn, i = .rnd x nn) ∧
    t.compat = s.compat ∧ t.params = s.params ∧ t.mem = s.mem ∧
    ∀ a, t.memRead a = s.memRead a

/-- R22: an instruction writes no register its row does not name, and what it does depends on
no register its row does not name: from two states that differ in other registers only, the
outcomes agree on everything but registers the instruction left as they were. -/
def Obligations.RegisterAccessFollowsTheTable : Prop :=
  ∀ (i : Instr) (s t : State), exec i s = .next t →
    (∀ r, r ∉ regsWritten s.params i → t.getReg r = s.getReg r) ∧
    ∀ v', (∀ r ∈ regsRead s.params s.compat i,
        ({ s with v := v' } : State).getReg r = s.getReg r) →
      ∃ t', exec i { s with v := v' } = .next t' ∧ t' = { t with v := t'.v } ∧
        ∀ r, t'.getReg r = t.getReg r ∨
          (t.getReg r = s.getReg r ∧ t'.getReg r = ({ s with v := v' } : State).getReg r)

/-- R4: the mode changes what the shifts and the jumps with offset do, and what no other
instruction does. -/
def Obligations.ModeChangesOnlyShiftsAndOffsetJumps : Prop :=
  (∀ (i : Instr) (c : Compat) (s t : State),
    (∀ x y, i ≠ .shr x y ∧ i ≠ .shl x y) → (∀ nnn, i ≠ .jpV0 nnn) →
    (∀ x nnn, i ≠ .jpVx x nnn) → exec i s = .next t →
    exec i { s with compat := c } = .next { t with compat := c }) ∧
  ∀ i : Instr, (i = .shr 0x0#4 0x1#4 ∨ i = .shl 0x0#4 0x1#4 ∨ i = .jpV0 0x0F0#12 ∨
      i = .jpVx 0x2#4 0x2F0#12) →
    ∃ s t t' : State, exec i { s with compat := .original } = .next t ∧
      exec i { s with compat := .new } = .next t' ∧ t' ≠ { t with compat := .new }

/-- R36, at the execute stage: no instruction's effect on the rest of the state depends on `st`
or `fault`, nor on `halted`, which only the step looks at (R108; that exec does not is log
entry 13), nor on the field `result` (log entry 3). -/
def Obligations.ExecutionIgnoresSoundTimerAndStatus : Prop :=
  ∀ (i : Instr) (s t : State) (b : Byte) (h : Bool) (f : FaultCode) (r : Option CycleResult),
    exec i s = .next t →
    ∃ t', exec i { s with st := b, halted := h, fault := f, result := r } = .next t' ∧
      t' = { t with st := t'.st, halted := t'.halted, fault := t'.fault, result := t'.result }

/-! ## The host's other moves -/

/-- R233, R164: the byte the host supplies is the one the next CXNN uses, whatever cycles and
timer writes come between, if none of them draws (the model's counter of draws, log entry 4). -/
def Obligations.HostSuppliesTheNextRandomByte : Prop :=
  ∀ (s t : State) (b hi lo : Byte) (ms : List Move) (x : Nibble) (nn : Byte),
    (∀ m ∈ ms, m.isReset = false ∧ ∀ c, m ≠ .host (.supplyRandom c)) →
    applyMoves (.host (.supplyRandom b) :: ms) s = .next t → t.draws = s.draws →
    t.running → t.fetches hi lo → decode t.params t.compat (hi ++ lo) = .rnd x nn →
    ∃ u, step t = .next u ∧ u.getReg x = b &&& nn

/-- R250, R223: a reset by the host, also of a halted core, leaves the reset state of its image
and mode, and the first cycle after it runs the word at `P_ROM_BASE`. The parameters stay
(log entry 11), the free random bytes are not restarted (log entry 4), and the `result`
field is as log entry 3 says. -/
def Obligations.HostResetRestartsTheCore : Prop :=
  ∀ (s : State) (image : Memory) (c : Compat),
    ∃ t, applyMove (.host (.reset image c)) s = .next t ∧
      t = State.resetWith s.params image c s.draws ∧
      (s.params.wf → t.running ∧ ∃ hi lo, t.fetches hi lo ∧
        hi = Memory.read image s.params.romBase.toNat ∧
        lo = Memory.read image (s.params.romBase.toNat + 1) ∧
        step t = exec (decode s.params c (hi ++ lo))
          { t with pc := s.params.romBase + 2, result := some .ok })
end

