-- ==== Sys2Proof/Laws/Decode.lean ====
section
/-! SUPPORT. The fields of the words the encoder builds, and the bytes of a word. -/

namespace Sys2Proof

/-- A slice that lies in the low part of a concatenation. -/
theorem slice_low {a b : Nat} (u : BitVec a) (v : BitVec b) (lo len : Nat) (h : lo + len ≤ b) :
    (u ++ v).extractLsb' lo len = v.extractLsb' lo len := by
  ext k hk
  simp only [BitVec.getElem_extractLsb', BitVec.getLsbD_append, show lo + k < b by omega, if_true]

/-- A slice that lies in the high part of a concatenation. -/
theorem slice_high {a b : Nat} (u : BitVec a) (v : BitVec b) (lo len : Nat) (h : b ≤ lo) :
    (u ++ v).extractLsb' lo len = u.extractLsb' (lo - b) len := by
  ext k hk
  simp only [BitVec.getElem_extractLsb', BitVec.getLsbD_append, show ¬lo + k < b by omega,
    if_false]
  congr 1
  omega

variable (f x y n : Nibble) (nn mid : Byte) (nnn : Addr)

/-! ### f ++ nnn -/

@[simp] theorem fieldFirst_addr : fieldFirst (f ++ nnn) = f :=
  (slice_high _ _ _ _ (by decide)).trans BitVec.extractLsb'_eq_self
@[simp] theorem fieldNNN_addr : fieldNNN (f ++ nnn) = nnn :=
  (slice_low _ _ _ _ (by decide)).trans BitVec.extractLsb'_eq_self

/-! ### f ++ x ++ nn -/

@[simp] theorem fieldFirst_regByte : fieldFirst (f ++ x ++ nn) = f :=
  (slice_high _ _ _ _ (by decide)).trans ((slice_high _ _ _ _ (by decide)).trans BitVec.extractLsb'_eq_self)
@[simp] theorem fieldX_regByte : fieldX (f ++ x ++ nn) = x :=
  (slice_high _ _ _ _ (by decide)).trans ((slice_low _ _ _ _ (by decide)).trans BitVec.extractLsb'_eq_self)
@[simp] theorem fieldNN_regByte : fieldNN (f ++ x ++ nn) = nn :=
  (slice_low _ _ _ _ (by decide)).trans BitVec.extractLsb'_eq_self

/-! ### f ++ x ++ y ++ n -/

@[simp] theorem fieldFirst_regReg : fieldFirst (f ++ x ++ y ++ n) = f :=
  (slice_high _ _ _ _ (by decide)).trans ((slice_high _ _ _ _ (by decide)).trans ((slice_high _ _ _ _ (by decide)).trans BitVec.extractLsb'_eq_self))
@[simp] theorem fieldX_regReg : fieldX (f ++ x ++ y ++ n) = x :=
  (slice_high _ _ _ _ (by decide)).trans ((slice_high _ _ _ _ (by decide)).trans ((slice_low _ _ _ _ (by decide)).trans BitVec.extractLsb'_eq_self))
@[simp] theorem fieldY_regReg : fieldY (f ++ x ++ y ++ n) = y :=
  (slice_high _ _ _ _ (by decide)).trans ((slice_low _ _ _ _ (by decide)).trans BitVec.extractLsb'_eq_self)
@[simp] theorem fieldN_regReg : fieldN (f ++ x ++ y ++ n) = n :=
  (slice_low _ _ _ _ (by decide)).trans BitVec.extractLsb'_eq_self

/-! ### f ++ mid ++ n -/

@[simp] theorem fieldFirst_mid : fieldFirst (f ++ mid ++ n) = f :=
  (slice_high _ _ _ _ (by decide)).trans ((slice_high _ _ _ _ (by decide)).trans BitVec.extractLsb'_eq_self)
@[simp] theorem fieldN_mid : fieldN (f ++ mid ++ n) = n :=
  (slice_low _ _ _ _ (by decide)).trans BitVec.extractLsb'_eq_self
@[simp] theorem fieldMid_mid : fieldMid (f ++ mid ++ n) = mid :=
  (slice_high _ _ _ _ (by decide)).trans ((slice_low _ _ _ _ (by decide)).trans BitVec.extractLsb'_eq_self)

/-- The 12-bit address a register and a byte make up (R74). -/
theorem fieldNNN_regByte : fieldNNN (f ++ x ++ nn) = (x ++ nn : BitVec (4 + 8)) := by
  have h : (f ++ x ++ nn : Word) = (f ++ (x ++ nn : BitVec (4 + 8)) : BitVec (4 + (4 + 8))) := by
    rw [BitVec.append_assoc (x₁ := f) (x₂ := x) (x₃ := nn)]
    rfl
  rw [h]
  exact fieldNNN_addr _ _

/-- The X nibble of an address word (R74). -/
theorem fieldX_addr : fieldX (f ++ nnn) = nnn.extractLsb' 8 4 :=
  slice_low _ _ _ _ (by decide)

/-! ### fields as numbers, and a word from its fields -/

theorem fieldFirst_toNat (w : Word) : (fieldFirst w).toNat = w.toNat / 4096 := by
  have := w.isLt
  simp only [fieldFirst, BitVec.extractLsb'_toNat, Nat.shiftRight_eq_div_pow]
  omega
theorem fieldN_toNat (w : Word) : (fieldN w).toNat = w.toNat % 16 := by
  simp [fieldN, BitVec.extractLsb'_toNat]
theorem fieldNN_toNat (w : Word) : (fieldNN w).toNat = w.toNat % 256 := by
  simp [fieldNN, BitVec.extractLsb'_toNat]
theorem fieldMid_toNat (w : Word) : (fieldMid w).toNat = w.toNat / 16 % 256 := by
  simp [fieldMid, BitVec.extractLsb'_toNat, Nat.shiftRight_eq_div_pow]

/-- A word is its four nibbles (R70). -/
theorem word_eq_nibbles (w : Word) : w = fieldFirst w ++ fieldX w ++ fieldY w ++ fieldN w := by
  apply BitVec.eq_of_getLsbD_eq
  intro k hk
  have h1 := BitVec.getLsbD_append (x := fieldFirst w ++ fieldX w ++ fieldY w) (y := fieldN w)
    (i := k)
  have h2 := BitVec.getLsbD_append (x := fieldFirst w ++ fieldX w) (y := fieldY w) (i := k - 4)
  have h3 := BitVec.getLsbD_append (x := fieldFirst w) (y := fieldX w) (i := k - 4 - 4)
  refine Eq.trans ?_ h1.symm
  rw [h2, h3]
  simp only [fieldFirst, fieldX, fieldY, fieldN, BitVec.getLsbD_extractLsb']
  split
  · simp [*]
  · split
    · simp only [*, decide_true, Bool.true_and]; congr 1; omega
    · split
      · simp only [*, decide_true, Bool.true_and]; congr 1; omega
      · have : k - 4 - 4 - 4 < 4 := by omega
        simp only [this, decide_true, Bool.true_and]; congr 1; omega

/-! ### the four families with a second level (R75) -/

theorem decode_family0 (p : Params) (c : Compat) (w : Word) (h : fieldFirst w = 0x0#4) :
    decode p c w = decodeFamily0 p w := by simp [decode, h]
theorem decode_family8 (p : Params) (c : Compat) (w : Word) (h : fieldFirst w = 0x8#4) :
    decode p c w = decodeFamily8 p w := by simp [decode, h]
theorem decode_familyB (p : Params) (c : Compat) (w : Word) (h : fieldFirst w = 0xB#4) :
    decode p c w = decodeFamilyB p c w := by simp [decode, h]
theorem decode_familyF (p : Params) (c : Compat) (w : Word) (h : fieldFirst w = 0xF#4) :
    decode p c w = decodeFamilyF p w := by simp [decode, h]

/-! ### bytes of a word -/

/-- A word is its two bytes, big-endian (R52). -/
@[simp] theorem wordOfBytes_high_low (w : Word) : wordOfBytes (highByte w) (lowByte w) = w := by
  apply BitVec.eq_of_getLsbD_eq
  intro k hk
  have h := BitVec.getLsbD_append (x := highByte w) (y := lowByte w) (i := k)
  simp only [wordOfBytes]
  refine h.trans ?_
  simp only [highByte, lowByte, BitVec.getLsbD_extractLsb']
  split
  · simp [*]
  · have : k - 8 < 8 := by omega
    simp [this, show 8 + (k - 8) = k by omega]

/-- The first byte of a word built from two (R52). -/
@[simp] theorem highByte_wordOfBytes (hi lo : Byte) : highByte (wordOfBytes hi lo) = hi :=
  (slice_high _ _ _ _ (by decide)).trans BitVec.extractLsb'_eq_self

/-- The second byte of a word built from two (R52). -/
@[simp] theorem lowByte_wordOfBytes (hi lo : Byte) : lowByte (wordOfBytes hi lo) = lo :=
  (slice_low _ _ _ _ (by decide)).trans BitVec.extractLsb'_eq_self

/-- The bytes of an instruction decode as its word, and the bytes after them are left. -/
theorem decodeBytes_encodeBytes (p : Params) (c : Compat) (i : Instr) (rest : List Byte) :
    decodeBytes p c (encodeBytes i ++ rest) = .ok (decode p c (encode i), rest) := by
  simp [encodeBytes, decodeBytes]

/-- A 16-bit table word is the word itself. -/
@[simp] theorem tableWord_toNat (w : Word) : tableWord 16 w.toNat = w := by
  have := w.isLt
  simp [tableWord, Nat.mod_eq_of_lt this]

end Sys2Proof
end

