-- ==== Sys2Proof/Laws/Memory.lean ====
section
/-! SUPPORT. The laws of memory: read after write, the canonical form is kept, and two
canonical memories that read alike are equal. What `memRead` and `memReadBytes` answer. -/

namespace Sys2Proof.Machine

/-- An address below every listed one reads as unlisted. -/
theorem Memory.read_of_lt (m : Memory) (a : Nat) (h : ∀ c ∈ m, a < c.1) :
    Memory.read m a = unlistedByte := by
  induction m with
  | nil => rfl
  | cons c m ih =>
    have hc := h c (by simp)
    rw [Memory.read, if_neg (by omega)]
    exact ih fun d hd => h d (by simp [hd])

/-- Every entry of a write is the new one or an old one at another address. -/
theorem Memory.mem_write (m : Memory) (a : Nat) (v : Byte) (c : Host.Cell) :
    c ∈ Memory.write m a v → (c = (a, v) ∧ v ≠ unlistedByte) ∨ c ∈ m := by
  induction m with
  | nil =>
    intro h
    rw [Memory.write] at h
    split at h
    · simp at h
    · exact .inl ⟨by simpa using h, ‹_›⟩
  | cons d m ih =>
    obtain ⟨b, w⟩ := d
    intro h
    rw [Memory.write] at h
    split at h
    · split at h
      · exact .inr h
      · rcases List.mem_cons.1 h with rfl | h
        · exact .inl ⟨rfl, ‹_›⟩
        · exact .inr h
    · split at h
      · split at h
        · exact .inr (by simp [h])
        · rcases List.mem_cons.1 h with rfl | h
          · exact .inl ⟨rfl, ‹_›⟩
          · exact .inr (by simp [h])
      · rcases List.mem_cons.1 h with rfl | h
        · exact .inr (by simp)
        · exact (ih h).imp id fun h => by simp [h]

/-- A write keeps the canonical form. -/
theorem Memory.wf_write (m : Memory) (a : Nat) (v : Byte) (h : Memory.wf m) :
    Memory.wf (Memory.write m a v) := by
  refine ⟨?_, fun c hc => ?_⟩
  · obtain ⟨hs, -⟩ := h
    induction m with
    | nil => rw [Memory.write]; split <;> simp
    | cons d m ih =>
      obtain ⟨b, w⟩ := d
      obtain ⟨hd, hm⟩ := List.pairwise_cons.1 hs
      rw [Memory.write]
      split
      · split
        · exact hs
        · refine List.pairwise_cons.2 ⟨fun c hc => ?_, hs⟩
          rcases List.mem_cons.1 hc with rfl | hc
          · assumption
          · have := hd c hc; simp only at this ⊢; omega
      · split
        · subst_vars
          split
          · exact hm
          · exact List.pairwise_cons.2 ⟨hd, hm⟩
        · refine List.pairwise_cons.2 ⟨fun c hc => ?_, ih hm⟩
          rcases Memory.mem_write _ _ _ _ hc with ⟨rfl, -⟩ | hc
          · simp only; omega
          · exact hd c hc
  · rcases Memory.mem_write _ _ _ _ hc with ⟨rfl, hv⟩ | hc
    · exact hv
    · exact h.2 c hc

/-- Read after write at the same address. -/
theorem Memory.read_write_same (m : Memory) (a : Nat) (v : Byte)
    (h : m.Pairwise fun c d => c.1 < d.1) : Memory.read (Memory.write m a v) a = v := by
  induction m with
  | nil => rw [Memory.write]; split <;> simp_all [Memory.read]
  | cons d m ih =>
    obtain ⟨b, w⟩ := d
    obtain ⟨hd, hm⟩ := List.pairwise_cons.1 h
    rw [Memory.write]
    split
    · split
      · subst_vars
        exact Memory.read_of_lt _ _ fun c hc => by
          rcases List.mem_cons.1 hc with rfl | hc
          · assumption
          · have := hd c hc; simp only at this; omega
      · simp [Memory.read]
    · split
      · subst_vars
        split
        · subst_vars; exact Memory.read_of_lt _ _ hd
        · simp [Memory.read]
      · rw [Memory.read, if_neg ‹_›]; exact ih hm

/-- A write leaves every other address alone. -/
theorem Memory.read_write_other (m : Memory) (a b : Nat) (v : Byte) (hab : b ≠ a) :
    Memory.read (Memory.write m a v) b = Memory.read m b := by
  induction m with
  | nil => rw [Memory.write]; split <;> simp [Memory.read, hab]
  | cons d m ih =>
    obtain ⟨c, w⟩ := d
    rw [Memory.write]
    split
    · split
      · rfl
      · rw [Memory.read, if_neg hab]
    · split
      · subst_vars
        split
        · rw [Memory.read, if_neg hab]
        · rw [Memory.read, Memory.read, if_neg hab, if_neg hab]
      · rw [Memory.read, Memory.read, ih]

/-- Writing consecutive bytes keeps the canonical form. -/
theorem Memory.wf_writeBytes (m : Memory) (a : Nat) (vs : List Byte) (h : Memory.wf m) :
    Memory.wf (Memory.writeBytes m a vs) := by
  induction vs generalizing m a with
  | nil => exact h
  | cons v vs ih => exact ih _ _ (Memory.wf_write m a v h)

/-- Consecutive bytes leave every address below the first alone. -/
theorem Memory.read_writeBytes_below (m : Memory) (a b : Nat) (vs : List Byte) (hb : b < a) :
    Memory.read (Memory.writeBytes m a vs) b = Memory.read m b := by
  induction vs generalizing m a with
  | nil => rfl
  | cons v vs ih =>
    rw [Memory.writeBytes, ih _ _ (by omega), Memory.read_write_other _ _ _ _ (by omega)]

/-- Consecutive bytes read back. -/
theorem Memory.read_writeBytes (m : Memory) (a : Nat) (vs : List Byte) (h : Memory.wf m)
    (k : Nat) (hk : k < vs.length) :
    Memory.read (Memory.writeBytes m a vs) (a + k) = vs[k] := by
  induction vs generalizing m a k with
  | nil => simp at hk
  | cons v vs ih =>
    rw [Memory.writeBytes]
    cases k with
    | zero =>
      rw [Memory.read_writeBytes_below _ _ _ _ (by omega)]
      exact Memory.read_write_same _ _ _ h.1
    | succ k =>
      have := ih _ (a + 1) (Memory.wf_write m a v h) k (by simpa using hk)
      rw [show a + (k + 1) = a + 1 + k by omega, this]
      rfl

/-- Canonical memories that read alike are equal. -/
theorem Memory.eq_of_read_eq (m n : Memory) (hm : Memory.wf m) (hn : Memory.wf n)
    (h : ∀ a, Memory.read m a = Memory.read n a) : m = n := by
  induction m generalizing n with
  | nil =>
    cases n with
    | nil => rfl
    | cons d n =>
      exact absurd (h d.1).symm (by simpa [Memory.read] using hn.2 d (by simp))
  | cons c m ih =>
    obtain ⟨hc, hm1⟩ := List.pairwise_cons.1 hm.1
    have hcv : c.2 ≠ unlistedByte := hm.2 c (by simp)
    cases n with
    | nil => exact absurd (h c.1) (by simpa [Memory.read] using hcv)
    | cons d n =>
      obtain ⟨hd, hn1⟩ := List.pairwise_cons.1 hn.1
      have hdv : d.2 ≠ unlistedByte := hn.2 d (by simp)
      have hlt (e f : Host.Cell) (l : Memory) (hf : ∀ x ∈ l, f.1 < x.1) (hef : e.1 < f.1) :
          Memory.read (f :: l) e.1 = unlistedByte :=
        Memory.read_of_lt _ _ fun x hx => by
          rcases List.mem_cons.1 hx with rfl | hx
          · exact hef
          · exact lt_trans hef (hf x hx)
      have hself (e : Host.Cell) (l : Memory) : Memory.read (e :: l) e.1 = e.2 := by
        simp [Memory.read]
      rcases lt_trichotomy c.1 d.1 with hlt' | heq | hgt
      · exact absurd ((hself c m).symm.trans ((h c.1).trans (hlt c d n hd hlt'))) hcv
      · have hv : c.2 = d.2 := by
          rw [← hself c m, ← hself d n, ← heq]; exact h c.1
        have hcd : c = d := Prod.ext heq hv
        subst hcd
        congr 1
        refine ih n ⟨hm1, fun x hx => hm.2 x (by simp [hx])⟩
          ⟨hn1, fun x hx => hn.2 x (by simp [hx])⟩ fun a => ?_
        by_cases ha : a = c.1
        · subst ha
          rw [Memory.read_of_lt _ _ hc, Memory.read_of_lt _ _ hd]
        · have := h a
          rwa [Memory.read, Memory.read, if_neg ha, if_neg ha] at this
      · exact absurd ((hself d n).symm.trans ((h d.1).symm.trans (hlt d c m hc hgt))) hdv

/-- `MemRead` answers exactly below `P_MEM_SIZE`. -/
theorem State.memRead_eq_some (s : State) (a : Nat) (b : Byte) :
    s.memRead a = some b ↔ a < s.params.memSize ∧ Memory.read s.mem a = b := by
  unfold State.memRead
  split <;> simp [*]

/-- `MemRead` answers nothing from `P_MEM_SIZE` on. -/
theorem State.memRead_eq_none (s : State) (a : Nat) :
    s.memRead a = none ↔ s.params.memSize ≤ a := by
  unfold State.memRead
  split <;> simp <;> omega

/-- `MemRead` depends on the memory and the parameters alone. -/
theorem State.memRead_congr (s t : State) (hm : t.mem = s.mem) (hp : t.params = s.params)
    (a : Nat) : t.memRead a = s.memRead a := by
  unfold State.memRead
  rw [hm, hp]

/-- A run of bytes is read exactly when every one of them lies in memory. -/
theorem State.memReadBytes_eq (s : State) (a n : Nat) (h : ∀ r, r < n → a + r < s.params.memSize) :
    s.memReadBytes a n = some ((List.range n).map fun r => Memory.read s.mem (a + r)) := by
  induction n generalizing a with
  | zero => rfl
  | succ n ih =>
    have h0 : s.memRead a = some (Memory.read s.mem a) :=
      (s.memRead_eq_some a _).2 ⟨h 0 (by omega), rfl⟩
    have h1 := ih (a + 1) fun r hr => by have := h (r + 1) (by omega); omega
    rw [State.memReadBytes, h0, h1, List.range_succ_eq_map, List.map_cons, List.map_map]
    simp only [Nat.add_zero, Option.some.injEq, List.cons.injEq, true_and]
    refine List.map_congr_left fun r _ => ?_
    simp only [Function.comp, Nat.succ_eq_add_one]
    congr 1
    omega

/-- A run of bytes is not read when one of them lies past memory. -/
theorem State.memReadBytes_eq_none (s : State) (a n : Nat)
    (h : ∃ r, r < n ∧ s.params.memSize ≤ a + r) : s.memReadBytes a n = none := by
  induction n generalizing a with
  | zero => obtain ⟨r, hr, -⟩ := h; omega
  | succ n ih =>
    obtain ⟨r, hr, hm⟩ := h
    rw [State.memReadBytes]
    cases r with
    | zero => rw [(s.memRead_eq_none a).2 (by omega)]
    | succ r => rw [ih (a + 1) ⟨r, by omega, by omega⟩]; split <;> simp_all

/-- As many bytes are read as were asked for. -/
theorem State.memReadBytes_length (s : State) (a n : Nat) (bs : List Byte)
    (h : s.memReadBytes a n = some bs) : bs.length = n := by
  induction n generalizing a bs with
  | zero => simp_all [State.memReadBytes]
  | succ n ih =>
    rw [State.memReadBytes] at h
    split at h
    · next h1 h2 => cases h; simp [ih _ _ h2]
    · cases h

/-- The memory of the reset state is in its canonical form. -/
theorem State.reset_mem_wf : Memory.wf State.reset.mem := ⟨.nil, nofun⟩

end Sys2Proof.Machine
end

