-- ==== Sys2Proof/Laws/Registers.lean ====
section
/-! SUPPORT. Reads after writes of the general registers, and what the write of a result with
its flag leaves (spec 42_alu.md R150). -/

namespace Sys2Proof.Machine

variable (s : State) (x y : Nibble) (b : Byte) (f : Bool)

/-- A register reads what was written to it. -/
@[simp] theorem State.getReg_setReg_same : (s.setReg x b).getReg x = b := by
  simp [State.getReg]

/-- A write leaves every other register alone. -/
theorem State.getReg_setReg_other (h : y ≠ x) : (s.setReg x b).getReg y = s.getReg y := by
  have : x.toNat ≠ y.toNat := fun e => h (BitVec.eq_of_toNat_eq e.symm)
  simp [State.getReg, this]

/-- A register after a write, whichever it is. -/
theorem State.getReg_setReg : (s.setReg x b).getReg y = if y = x then b else s.getReg y := by
  split
  · subst_vars; exact s.getReg_setReg_same y b
  · exact s.getReg_setReg_other x y b ‹_›

/-- Registers depend on `v` alone. -/
theorem State.getReg_congr (t : State) (h : t.v = s.v) : t.getReg x = s.getReg x := by
  simp [State.getReg, h]

/-- Two register files are equal when every register reads alike. -/
theorem State.v_eq_of_getReg_eq (t : State) (h : ∀ r, t.getReg r = s.getReg r) : t.v = s.v := by
  apply Vector.ext
  intro k hk
  have := h (BitVec.ofNat 4 k)
  simpa [State.getReg, Nat.mod_eq_of_lt hk] using this

/-- VF after a flag write. -/
@[simp] theorem State.getReg_setFlag_flag : (s.setFlag f).getReg flagReg = flagByte f :=
  s.getReg_setReg_same flagReg (flagByte f)

/-- Any other register after a flag write. -/
theorem State.getReg_setFlag_other (h : y ≠ flagReg) : (s.setFlag f).getReg y = s.getReg y :=
  s.getReg_setReg_other flagReg y (flagByte f) h

/-- A flag write is a write of V. -/
theorem State.setFlag_eq : s.setFlag f = { s with v := (s.setFlag f).v } := rfl

/-- A result with its flag is a write of V. -/
theorem State.setResultAndFlag_eq :
    s.setResultAndFlag x b f = { s with v := (s.setResultAndFlag x b f).v } := rfl

/-- VF ends holding the flag, also when it is the destination (R150). -/
@[simp] theorem State.getReg_setResultAndFlag_flag :
    (s.setResultAndFlag x b f).getReg flagReg = flagByte f :=
  (s.setReg x b).getReg_setFlag_flag f

/-- The destination holds the result when it is not VF. -/
theorem State.getReg_setResultAndFlag_dest (h : x ≠ flagReg) :
    (s.setResultAndFlag x b f).getReg x = b := by
  rw [State.setResultAndFlag, State.getReg_setFlag_other _ _ _ h, State.getReg_setReg_same]

/-- No other register changes. -/
theorem State.getReg_setResultAndFlag_other (hx : y ≠ x) (hf : y ≠ flagReg) :
    (s.setResultAndFlag x b f).getReg y = s.getReg y := by
  rw [State.setResultAndFlag, State.getReg_setFlag_other _ _ _ hf,
    State.getReg_setReg_other _ _ _ _ hx]

/-- A flag is 0 or 1 (R27). -/
theorem flagByte_zero_or_one : flagByte f = 0 ∨ flagByte f = 1 := by
  cases f <;> simp [flagByte]

end Sys2Proof.Machine
end

