-- ==== Sys2Proof/Laws/Display.lean ====
section
/-! SUPPORT. The framebuffer: pixels after a write, and what drawing keeps. -/

namespace Sys2Proof.Machine

variable (p : Params) (g : List Bool)

/-- A set pixel keeps the framebuffer's length (R34). -/
@[simp] theorem gfxSetPixel_length (x y : Nat) (b : Bool) :
    (gfxSetPixel p g x y b).length = g.length := by
  simp [gfxSetPixel]

/-- A cleared framebuffer has its full length (R34). -/
@[simp] theorem gfxClear_length : (gfxClear p).length = p.height * p.width := by
  simp [gfxClear]

/-- Every pixel of a cleared framebuffer is off (R190). -/
@[simp] theorem gfxPixel_gfxClear (x y : Nat) : gfxPixel p (gfxClear p) x y = false := by
  simp only [gfxPixel, gfxClear, List.getD_eq_getElem?_getD, List.getElem?_replicate]
  split <;> rfl

/-- Distinct positions inside the framebuffer stand at distinct places (R34). -/
theorem pixelIndex_inj (x y x' y' : Nat) (hx : x < p.width) (hx' : x' < p.width) :
    pixelIndex p x y = pixelIndex p x' y' ↔ x = x' ∧ y = y' := by
  unfold pixelIndex
  refine ⟨fun h => ?_, fun ⟨h1, h2⟩ => by rw [h1, h2]⟩
  have hy : y = y' := by
    have h1 : (y * p.width + x) / p.width = y := by
      rw [Nat.mul_comm, Nat.mul_add_div (by omega), Nat.div_eq_of_lt hx, Nat.add_zero]
    have h2 : (y' * p.width + x') / p.width = y' := by
      rw [Nat.mul_comm, Nat.mul_add_div (by omega), Nat.div_eq_of_lt hx', Nat.add_zero]
    rw [← h1, ← h2, h]
  subst hy
  exact ⟨by omega, rfl⟩

/-- A position inside the framebuffer is a place of its list (R34). -/
theorem pixelIndex_lt (x y : Nat) (hx : x < p.width) (hy : y < p.height) :
    pixelIndex p x y < p.height * p.width := by
  unfold pixelIndex
  calc y * p.width + x < y * p.width + p.width := by omega
    _ = (y + 1) * p.width := by rw [Nat.add_mul, Nat.one_mul]
    _ ≤ p.height * p.width := Nat.mul_le_mul_right _ hy

/-- A pixel after another has been set. -/
theorem gfxPixel_gfxSetPixel (x y x' y' : Nat) (b : Bool)
    (hg : g.length = p.height * p.width) (hx : x < p.width) (hy : y < p.height)
    (hx' : x' < p.width) :
    gfxPixel p (gfxSetPixel p g x y b) x' y' =
      if x' = x ∧ y' = y then b else gfxPixel p g x' y' := by
  have hlt : pixelIndex p x y < g.length := hg ▸ pixelIndex_lt p x y hx hy
  simp only [gfxPixel, gfxSetPixel, List.getD_eq_getElem?_getD, List.getElem?_set]
  by_cases h : x' = x ∧ y' = y
  · obtain ⟨rfl, rfl⟩ := h
    simp [hlt]
  · have : pixelIndex p x y ≠ pixelIndex p x' y' := fun e =>
      h (by have := (pixelIndex_inj p x y x' y' hx hx').1 e; exact ⟨this.1.symm, this.2.symm⟩)
    simp [this, h]

/-- One sprite bit keeps the framebuffer's length. -/
@[simp] theorem drawBit_length (px py : Nat) (bit : Bool) (k : Canvas) :
    (drawBit p px py bit k).gfx.length = k.gfx.length := by
  unfold drawBit
  split
  · rfl
  · split <;> simp

/-- One sprite row keeps the framebuffer's length. -/
@[simp] theorem drawColumns_length (ox py : Nat) (b : Byte) (c : Nat) (k : Canvas) :
    (drawColumns p ox py b c k).gfx.length = k.gfx.length := by
  induction c generalizing k with
  | zero => rfl
  | succ c ih => simp [drawColumns, ih]

/-- A sprite keeps the framebuffer's length. -/
@[simp] theorem drawRows_length (ox py : Nat) (bs : List Byte) (k : Canvas) :
    (drawRows p ox py bs k).gfx.length = k.gfx.length := by
  induction bs generalizing py k with
  | nil => rfl
  | cons b bs ih => simp [drawRows, ih]

/-- A set bit inside the framebuffer flips its pixel and collides if it was on (R191). -/
theorem drawBit_inside (px py : Nat) (bit : Bool) (k : Canvas) (hx : px < p.width)
    (hy : py < p.height) :
    drawBit p px py bit k =
      if bit then ⟨gfxSetPixel p k.gfx px py (!gfxPixel p k.gfx px py),
        k.collision || gfxPixel p k.gfx px py⟩
      else k := by
  simp [drawBit, spriteTarget, hx, hy]

/-- Under Clip a bit past an edge is dropped (R192). -/
theorem drawBit_clipped (px py : Nat) (bit : Bool) (k : Canvas) (hc : p.drawEdge = .clip)
    (h : ¬(px < p.width ∧ py < p.height)) : drawBit p px py bit k = k := by
  simp [drawBit, spriteTarget, hc, h]

/-- The sprite's bytes, when all of them lie in memory (R191). -/
theorem State.spriteBytes_eq (s : State) (n : Nibble)
    (h : ∀ r, r < n.toNat → s.i.toNat + r < s.params.memSize) :
    s.spriteBytes n =
      some ((List.range n.toNat).map fun r => Memory.read s.mem (s.i.toNat + r)) :=
  s.memReadBytes_eq _ _ h

/-- No sprite is read when one of its bytes lies past memory (R56). -/
theorem State.spriteBytes_eq_none (s : State) (n : Nibble)
    (h : ∃ r, r < n.toNat ∧ s.params.memSize ≤ s.i.toNat + r) : s.spriteBytes n = none :=
  s.memReadBytes_eq_none _ _ h

/-- The edge check of R191, as a proposition. -/
theorem drawPastEdge_eq_true (ox oy n : Nat) :
    drawPastEdge p ox oy n = true ↔
      p.drawEdge = .fault ∧ 0 < n ∧ (p.width ≤ ox + 7 ∨ p.height ≤ oy + n - 1) := by
  simp [drawPastEdge, and_assoc]

/-- Everything a draw can do: one of its two errors, or a write of `gfx` and VF. -/
theorem execDrw_cases (x y n : Nibble) (s t : State) (h : execDrw x y n s = .next t) :
    (s.spriteBytes n = none ∧ t = s.fatal .memReadOutOfBounds) ∨
    (drawPastEdge s.params (s.originX x) (s.originY y) n.toNat = true ∧
      t = s.fatal .drawOutOfBounds) ∨
    ∃ bytes, s.spriteBytes n = some bytes ∧
      drawPastEdge s.params (s.originX x) (s.originY y) n.toNat = false ∧
      t = { s with
        gfx := (drawRows s.params (s.originX x) (s.originY y) bytes ⟨s.gfx, false⟩).gfx }.setFlag
        (drawRows s.params (s.originX x) (s.originY y) bytes ⟨s.gfx, false⟩).collision := by
  unfold execDrw at h
  split at h
  · next hb => cases h; exact .inl ⟨hb, rfl⟩
  · next bytes hb =>
    split at h
    · next he => cases h; exact .inr (.inl ⟨he, rfl⟩)
    · next he => cases h; exact .inr (.inr ⟨bytes, hb, by simpa using he, rfl⟩)

end Sys2Proof.Machine
end

