-- ==== Sys2Proof/Laws/Draw.lean ====
section
/-! SUPPORT. What a whole sprite does to the framebuffer: drawing is a fold over the sprite's
pixels, and where no two of them land on one place (R191, R192) the fold XORs a picture. -/

namespace Sys2Proof.Machine

/-- One pixel of a sprite: the column and row it is drawn at, before the edge, and its bit. -/
structure SpritePixel where
  px : Nat
  py : Nat
  bit : Bool
  deriving DecidableEq, Repr

/-- The place of the framebuffer a sprite pixel lands on, if any (R192). -/
def SpritePixel.target (p : Params) (q : SpritePixel) : Option (Nat × Nat) :=
  spriteTarget p q.px q.py

/-- The last `c` columns of a sprite row, in the order they are drawn (R195). -/
def columnPixels (ox py : Nat) (b : Byte) : Nat → List SpritePixel
  | 0 => []
  | c + 1 => ⟨ox + (7 - c), py, b.getLsbD c⟩ :: columnPixels ox py b c

/-- The rows of a sprite, in the order they are drawn (R195). -/
def rowPixels (ox : Nat) : Nat → List Byte → List SpritePixel
  | _, [] => []
  | py, b :: bs => columnPixels ox py b 8 ++ rowPixels ox (py + 1) bs

/-- Draws sprite pixels one after the other. -/
def drawPixels (p : Params) : List SpritePixel → Canvas → Canvas
  | [], k => k
  | q :: qs, k => drawPixels p qs (drawBit p q.px q.py q.bit k)

variable (p : Params)

theorem drawPixels_append (l m : List SpritePixel) (k : Canvas) :
    drawPixels p (l ++ m) k = drawPixels p m (drawPixels p l k) := by
  induction l generalizing k with
  | nil => rfl
  | cons q l ih => exact ih _

/-- A sprite row is the fold of its pixels. -/
theorem drawColumns_eq (ox py : Nat) (b : Byte) (c : Nat) (k : Canvas) :
    drawColumns p ox py b c k = drawPixels p (columnPixels ox py b c) k := by
  induction c generalizing k with
  | zero => rfl
  | succ c ih => exact ih _

/-- A sprite is the fold of its pixels. -/
theorem drawRows_eq (ox py : Nat) (bs : List Byte) (k : Canvas) :
    drawRows p ox py bs k = drawPixels p (rowPixels ox py bs) k := by
  induction bs generalizing py k with
  | nil => rfl
  | cons b bs ih => rw [rowPixels, drawPixels_append, ← drawColumns_eq]; exact ih _ _

/-- The pixels of a sprite row. -/
theorem mem_columnPixels (ox py : Nat) (b : Byte) (n : Nat) (q : SpritePixel) :
    q ∈ columnPixels ox py b n ↔ ∃ c, c < n ∧ q = ⟨ox + (7 - c), py, b.getLsbD c⟩ := by
  induction n with
  | zero => simp [columnPixels]
  | succ n ih =>
    simp only [columnPixels, List.mem_cons, ih]
    constructor
    · rintro (rfl | ⟨c, hc, rfl⟩)
      · exact ⟨n, by omega, rfl⟩
      · exact ⟨c, by omega, rfl⟩
    · rintro ⟨c, hc, rfl⟩
      by_cases h : c = n
      · exact .inl (by rw [h])
      · exact .inr ⟨c, by omega, rfl⟩

/-- The pixels of a sprite: row r, column 7 - c has bit c of byte r (R195). -/
theorem mem_rowPixels (ox py : Nat) (bs : List Byte) (q : SpritePixel) :
    q ∈ rowPixels ox py bs ↔ ∃ r b c, bs[r]? = some b ∧ c < 8 ∧
      q = ⟨ox + (7 - c), py + r, b.getLsbD c⟩ := by
  induction bs generalizing py with
  | nil => simp [rowPixels]
  | cons b bs ih =>
    simp only [rowPixels, List.mem_append, mem_columnPixels, ih]
    constructor
    · rintro (⟨c, hc, rfl⟩ | ⟨r, b', c, hr, hc, rfl⟩)
      · exact ⟨0, b, c, rfl, hc, rfl⟩
      · exact ⟨r + 1, b', c, by simpa using hr, hc, by simp [Nat.add_assoc, Nat.add_comm 1 r]⟩
    · rintro ⟨r, b', c, hr, hc, rfl⟩
      cases r with
      | zero =>
        simp only [List.getElem?_cons_zero, Option.some.injEq] at hr
        exact .inl ⟨c, hc, by rw [hr]; rfl⟩
      | succ r =>
        exact .inr ⟨r, b', c, by simpa using hr, hc, by simp [Nat.add_assoc, Nat.add_comm 1 r]⟩

/-- No two pixels of a sprite are drawn at one position. -/
theorem rowPixels_pairwise (ox py : Nat) (bs : List Byte) :
    (rowPixels ox py bs).Pairwise fun q q' => ¬(q.px = q'.px ∧ q.py = q'.py) := by
  have col (py : Nat) (b : Byte) (n : Nat) (hn : n ≤ 8) :
      (columnPixels ox py b n).Pairwise fun q q' => ¬(q.px = q'.px ∧ q.py = q'.py) := by
    induction n with
    | zero => exact .nil
    | succ n ih =>
      refine .cons (fun q hq => ?_) (ih (by omega))
      obtain ⟨c, hc, rfl⟩ := (mem_columnPixels _ _ _ _ _).1 hq
      simp only
      omega
  induction bs generalizing py with
  | nil => exact .nil
  | cons b bs ih =>
    refine List.pairwise_append.2 ⟨col py b 8 (Nat.le_refl 8), ih (py + 1), fun q hq q' hq' => ?_⟩
    obtain ⟨c, hc, rfl⟩ := (mem_columnPixels _ _ _ _ _).1 hq
    obtain ⟨r, b', c', hr, hc', rfl⟩ := (mem_rowPixels _ _ _ _).1 hq'
    simp only
    omega

/-- A place a sprite pixel lands on lies inside the framebuffer. -/
theorem spriteTarget_lt (hw : 1 ≤ p.width) (hh : 1 ≤ p.height) (px py x y : Nat)
    (h : spriteTarget p px py = some (x, y)) : x < p.width ∧ y < p.height := by
  unfold spriteTarget at h
  split at h
  · next hi => cases h; exact hi
  · split at h
    · cases h; exact ⟨Nat.mod_lt _ (by omega), Nat.mod_lt _ (by omega)⟩
    · cases h
    · cases h

/-- A pixel of the framebuffer after one sprite pixel has been drawn. -/
theorem gfxPixel_drawBit (hw : 1 ≤ p.width) (hh : 1 ≤ p.height) (q : SpritePixel) (k : Canvas)
    (hg : k.gfx.length = p.height * p.width) (x y : Nat) (hx : x < p.width) :
    gfxPixel p (drawBit p q.px q.py q.bit k).gfx x y =
      Bool.xor (gfxPixel p k.gfx x y) (q.bit && decide (q.target p = some (x, y))) := by
  unfold drawBit SpritePixel.target
  cases ht : spriteTarget p q.px q.py with
  | none => simp
  | some t =>
    obtain ⟨a, b⟩ := t
    obtain ⟨ha, hb⟩ := spriteTarget_lt p hw hh _ _ _ _ ht
    cases hbit : q.bit with
    | false => simp
    | true =>
      simp only [if_true, Bool.true_and, Option.some.injEq, Prod.mk.injEq]
      rw [gfxPixel_gfxSetPixel p k.gfx a b x y _ hg ha hb hx]
      by_cases h : x = a ∧ y = b
      · obtain ⟨rfl, rfl⟩ := h; simp
      · have h' : ¬(a = x ∧ b = y) := fun e => h ⟨e.1.symm, e.2.symm⟩
        simp [h, h']

/-- The collision bit after one sprite pixel has been drawn (R193). -/
theorem collision_drawBit (q : SpritePixel) (k : Canvas) :
    (drawBit p q.px q.py q.bit k).collision = true ↔ k.collision = true ∨
      (q.bit = true ∧ ∃ x y, q.target p = some (x, y) ∧ gfxPixel p k.gfx x y = true) := by
  unfold drawBit SpritePixel.target
  cases ht : spriteTarget p q.px q.py with
  | none => simp
  | some t =>
    obtain ⟨a, b⟩ := t
    cases hbit : q.bit <;> simp [and_assoc]

/-- Sprite pixels that land on distinct places XOR a picture into the framebuffer, and a
collision is a set bit on a pixel that was on before the draw (R191, R193). -/
theorem drawPixels_spec (hw : 1 ≤ p.width) (hh : 1 ≤ p.height) (qs : List SpritePixel)
    (hq : qs.Pairwise fun q q' => ∀ t, q.target p = some t → q'.target p ≠ some t)
    (k : Canvas) (hg : k.gfx.length = p.height * p.width) :
    (∀ x y, x < p.width → gfxPixel p (drawPixels p qs k).gfx x y =
      Bool.xor (gfxPixel p k.gfx x y)
        (decide (∃ q ∈ qs, q.bit = true ∧ q.target p = some (x, y)))) ∧
    ((drawPixels p qs k).collision = true ↔ k.collision = true ∨
      ∃ q ∈ qs, q.bit = true ∧ ∃ x y, q.target p = some (x, y) ∧ gfxPixel p k.gfx x y = true) := by
  induction qs generalizing k with
  | nil => exact ⟨fun x y _ => by simp [drawPixels], by simp [drawPixels]⟩
  | cons q qs ih =>
    obtain ⟨h1, h2⟩ := List.pairwise_cons.1 hq
    obtain ⟨ih1, ih2⟩ := ih h2 (drawBit p q.px q.py q.bit k) (by simpa using hg)
    constructor
    · intro x y hx
      rw [drawPixels, ih1 x y hx, gfxPixel_drawBit p hw hh q k hg x y hx]
      by_cases hqt : q.bit = true ∧ q.target p = some (x, y)
      · have hno : ¬∃ q' ∈ qs, q'.bit = true ∧ q'.target p = some (x, y) :=
          fun ⟨q', hm, _, e⟩ => h1 q' hm _ hqt.2 e
        have hyes : ∃ q' ∈ q :: qs, q'.bit = true ∧ q'.target p = some (x, y) :=
          ⟨q, List.mem_cons_self, hqt⟩
        simp only [hno, hyes, hqt.1, hqt.2, decide_true, decide_false, Bool.true_and,
          Bool.xor_false]
      · have hb : (q.bit && decide (q.target p = some (x, y))) = false := by
          rw [← Bool.not_eq_true, Bool.and_eq_true, decide_eq_true_eq]; exact hqt
        have he : (∃ q' ∈ q :: qs, q'.bit = true ∧ q'.target p = some (x, y)) ↔
            ∃ q' ∈ qs, q'.bit = true ∧ q'.target p = some (x, y) := by
          simp only [List.mem_cons, exists_eq_or_imp, hqt, false_or]
        simp only [hb, he, Bool.xor_false]
    · rw [drawPixels, ih2, collision_drawBit]
      have same : (∃ q' ∈ qs, q'.bit = true ∧ ∃ x y, q'.target p = some (x, y) ∧
            gfxPixel p (drawBit p q.px q.py q.bit k).gfx x y = true) ↔
          ∃ q' ∈ qs, q'.bit = true ∧ ∃ x y, q'.target p = some (x, y) ∧
            gfxPixel p k.gfx x y = true := by
        refine exists_congr fun q' => and_congr_right fun hm => and_congr_right fun _ =>
          exists_congr fun x => exists_congr fun y => and_congr_right fun ht => ?_
        have hx := (spriteTarget_lt p hw hh _ _ _ _ ht).1
        have hne : q.target p ≠ some (x, y) := fun e => h1 q' hm _ e ht
        rw [gfxPixel_drawBit p hw hh q k hg x y hx]
        simp [hne]
      simp only [same, List.mem_cons, exists_eq_or_imp, or_assoc]

/-- Does a sprite pixel turn the place (x, y) over? -/
def SpritePixel.hits (p : Params) (x y : Nat) (q : SpritePixel) : Bool :=
  q.bit && decide (q.target p = some (x, y))

/-- Any sprite pixels, overlapping or not: a place is flipped once for every set bit on it, and
a collision is a place on before the draw and hit, or hit twice (R191, R193). -/
theorem drawPixels_count (hw : 1 ≤ p.width) (hh : 1 ≤ p.height) (qs : List SpritePixel)
    (k : Canvas) (hg : k.gfx.length = p.height * p.width) :
    (∀ x y, x < p.width → gfxPixel p (drawPixels p qs k).gfx x y =
      Bool.xor (gfxPixel p k.gfx x y) (decide (qs.countP (SpritePixel.hits p x y) % 2 = 1))) ∧
    ((drawPixels p qs k).collision = true ↔ k.collision = true ∨
      ∃ x y, x < p.width ∧ y < p.height ∧
        (gfxPixel p k.gfx x y = true ∧ 1 ≤ qs.countP (SpritePixel.hits p x y) ∨
          2 ≤ qs.countP (SpritePixel.hits p x y))) := by
  induction qs generalizing k with
  | nil => exact ⟨fun x y _ => by simp [drawPixels], by simp [drawPixels]⟩
  | cons q qs ih =>
    obtain ⟨ih1, ih2⟩ := ih (drawBit p q.px q.py q.bit k) (by simpa using hg)
    have px (x y : Nat) (hx : x < p.width) :
        gfxPixel p (drawBit p q.px q.py q.bit k).gfx x y =
          Bool.xor (gfxPixel p k.gfx x y) (q.hits p x y) :=
      gfxPixel_drawBit p hw hh q k hg x y hx
    constructor
    · intro x y hx
      rw [drawPixels, ih1 x y hx, px x y hx, List.countP_cons]
      cases q.hits p x y
      · simp
      · simp only [if_true, Bool.xor_true, Bool.not_xor]
        rw [← Bool.xor_not]
        congr 1
        rw [← decide_not, decide_eq_decide]
        omega
    · have hit : (q.bit = true ∧ ∃ x y, q.target p = some (x, y) ∧ gfxPixel p k.gfx x y = true) ↔
          ∃ x y, x < p.width ∧ y < p.height ∧ q.hits p x y = true ∧
            gfxPixel p k.gfx x y = true := by
        constructor
        · rintro ⟨hb, x, y, ht, hon⟩
          obtain ⟨hx, hy⟩ := spriteTarget_lt p hw hh _ _ _ _ ht
          exact ⟨x, y, hx, hy, by simp [SpritePixel.hits, hb, ht], hon⟩
        · rintro ⟨x, y, -, -, hh, hon⟩
          simp only [SpritePixel.hits, Bool.and_eq_true, decide_eq_true_eq] at hh
          exact ⟨hh.1, x, y, hh.2, hon⟩
      rw [drawPixels, ih2, collision_drawBit, hit, or_assoc]
      refine or_congr_right ?_
      rw [← exists_or]
      refine exists_congr fun x => ?_
      rw [← exists_or]
      refine exists_congr fun y => ?_
      rw [← and_or_left, ← and_or_left]
      refine and_congr_right fun hx => and_congr_right fun _ => ?_
      rw [px x y hx, List.countP_cons]
      generalize List.countP (SpritePixel.hits p x y) qs = c
      cases q.hits p x y <;> cases gfxPixel p k.gfx x y <;> simp
      exact fun h => by omega

/-- Where a sprite pixel lands under Wrap, inside the framebuffer or past an edge (R192). -/
theorem spriteTarget_wrap (hw : p.drawEdge = .wrap) (px py : Nat) :
    spriteTarget p px py = some (px % p.width, py % p.height) := by
  unfold spriteTarget
  split
  · next h => rw [Nat.mod_eq_of_lt h.1, Nat.mod_eq_of_lt h.2]
  · simp only [hw]

/-- Under Wrap the pixels of a sprite that hit a place are `spriteHits` many (R191, R192). -/
theorem State.countP_rowPixels (s : State) (hw : s.params.drawEdge = .wrap)
    (ox oy n x y : Nat) :
    (rowPixels ox oy ((List.range n).map fun r => Memory.read s.mem (s.i.toNat + r))).countP
      (SpritePixel.hits s.params x y) = s.spriteHits ox oy n x y := by
  unfold State.spriteHits
  rw [List.range_eq_range']
  suffices ∀ a, (rowPixels ox (oy + a) ((List.range' a n).map fun r =>
      Memory.read s.mem (s.i.toNat + r))).countP (SpritePixel.hits s.params x y) =
      (List.range' a n).foldr (fun r total => total + (List.range 8).countP fun c =>
        (Memory.read s.mem (s.i.toNat + r)).getLsbD (7 - c) &&
          decide ((ox + c) % s.params.width = x ∧ (oy + r) % s.params.height = y)) 0 from this 0
  induction n with
  | zero => exact fun _ => rfl
  | succ n ih =>
    intro a
    rw [List.range'_succ, List.map_cons, rowPixels, List.countP_append, List.foldr_cons,
      ← ih (a + 1), Nat.add_comm]
    congr 1
    simp only [columnPixels, List.range, List.range.loop, List.countP_cons, List.countP_nil,
      SpritePixel.hits, SpritePixel.target, spriteTarget_wrap s.params hw, Option.some.injEq,
      Prod.mk.injEq]

end Sys2Proof.Machine
end

