-- ==== Sys2Proof/Laws/Exec.lean ====
section
/-! SUPPORT. What the shared operations of a cycle answer, and the inversion of `exec`: an
instruction ends in a fatal error, in a warning, or in an update that leaves memory, mode,
parameters, error status and result alone. -/

namespace Sys2Proof.Machine

/-- A fetch answers exactly when both bytes lie in memory, and then their big-endian word. -/
theorem State.fetchWord_eq_some (s : State) (w : Word) :
    s.fetchWord = some w ↔
      s.pc.toNat + 1 < s.params.memSize ∧
        w = wordOfBytes (Memory.read s.mem s.pc.toNat) (Memory.read s.mem (s.pc.toNat + 1)) := by
  unfold State.fetchWord State.memRead
  by_cases h : s.pc.toNat + 1 < s.params.memSize
  · simp [h, show s.pc.toNat < s.params.memSize by omega, eq_comm]
  · simp only [h, if_false, false_and, iff_false]
    split <;> simp_all

/-- A fetch answers nothing exactly when `pc + 1` lies past memory (R101). -/
theorem State.fetchWord_eq_none (s : State) :
    s.fetchWord = none ↔ s.params.memSize ≤ s.pc.toNat + 1 := by
  rw [← not_iff_not, ← ne_eq, Option.ne_none_iff_exists']
  simp [State.fetchWord_eq_some]

/-- The post-fetch pc of a fetched word does not exceed `P_MEM_SIZE`. -/
theorem State.advance_pc_le (s : State) (h : s.pc.toNat + 1 < s.params.memSize) :
    (s.pc + 2).toNat ≤ s.params.memSize := by
  have : (s.pc + 2).toNat = (s.pc.toNat + 2) % 65536 := BitVec.toNat_add s.pc 2
  omega

/-- The stack is full exactly at a set limit (R122). -/
theorem State.stackFull_eq_true (s : State) :
    s.stackFull = true ↔ ∃ k, s.params.stackLimit = some k ∧ s.stack.length = k := by
  unfold State.stackFull
  split
  · simp [*]
  · next k hk => simp only [hk, Option.some.injEq, exists_eq_left', beq_iff_eq]

/-- Everything a jump with offset can do (R127). -/
theorem jumpWithOffset_cases (m : Compat) (x : Nibble) (nnn : Addr) (s t : State)
    (h : jumpWithOffset m x nnn s = .next t) :
    (s.compat = m ∧ t = s.setPc (s.offsetTarget x nnn)) ∨
      (s.compat ≠ m ∧ t = s.fatal .configMismatch) := by
  unfold jumpWithOffset at h
  split at h <;> cases h
  · exact .inl ⟨‹_›, rfl⟩
  · exact .inr ⟨‹_›, rfl⟩

/-- The offset target as a number: the sum never wraps (R128, R129). -/
theorem State.offsetTarget_toNat (s : State) (x : Nibble) (nnn : Addr) :
    (s.offsetTarget x nnn).toNat = nnn.toNat + (s.getReg x).toNat := by
  have h1 := nnn.isLt
  have h2 := (s.getReg x).isLt
  simp only [State.offsetTarget, addrOperand, BitVec.toNat_add, BitVec.toNat_setWidth]
  omega

/-- Every instruction answers a next state, and the state is one of three kinds. The fetch's
own error is raised by no instruction. -/
theorem exec_cases (i : Instr) (s : State) :
    (∃ code, code ≠ .none ∧ code ≠ .fetchOutOfBounds ∧ exec i s = .next (s.fatal code)) ∨
    (∃ w, exec i s = .next (s.warn w)) ∨
    ∃ t, exec i s = .next t ∧ t = { s with
      v := t.v, pc := t.pc, i := t.i, stack := t.stack, dt := t.dt, st := t.st, gfx := t.gfx,
      randPort := t.randPort, draws := t.draws } := by
  have upd {o : StepOutcome} (t : State) (h : o = .next t) (e : t = { s with
      v := t.v, pc := t.pc, i := t.i, stack := t.stack, dt := t.dt, st := t.st, gfx := t.gfx,
      randPort := t.randPort, draws := t.draws }) :
      (∃ code, code ≠ .none ∧ code ≠ .fetchOutOfBounds ∧ o = .next (s.fatal code)) ∨
      (∃ w, o = .next (s.warn w)) ∨
      ∃ t, o = .next t ∧ t = { s with
        v := t.v, pc := t.pc, i := t.i, stack := t.stack, dt := t.dt, st := t.st, gfx := t.gfx,
        randPort := t.randPort, draws := t.draws } := .inr (.inr ⟨t, h, e⟩)
  cases i
  case ret =>
    simp only [exec, execRet]
    split
    · exact .inl ⟨_, by decide, by decide, rfl⟩
    · exact upd _ rfl rfl
  case call =>
    simp only [exec, execCall]
    split
    · exact .inl ⟨_, by decide, by decide, rfl⟩
    · exact upd _ rfl rfl
  case jpV0 =>
    simp only [exec, execJpV0, jumpWithOffset]
    split
    · exact upd _ rfl rfl
    · exact .inl ⟨_, by decide, by decide, rfl⟩
  case jpVx =>
    simp only [exec, execJpVx, jumpWithOffset]
    split
    · exact upd _ rfl rfl
    · exact .inl ⟨_, by decide, by decide, rfl⟩
  case drw =>
    simp only [exec, execDrw]
    split
    · exact .inl ⟨_, by decide, by decide, rfl⟩
    · split
      · exact .inl ⟨_, by decide, by decide, rfl⟩
      · exact upd _ rfl rfl
  case unsettled8xy7 =>
    simp only [exec, execUnsettled8xy7]
    split
    · exact .inl ⟨_, by decide, by decide, rfl⟩
    · exact .inr (.inl ⟨_, rfl⟩)
    · exact upd _ rfl rfl
  case unsettledFx1e =>
    simp only [exec, execUnsettledFx1e]
    split
    · exact .inl ⟨_, by decide, by decide, rfl⟩
    · exact .inr (.inl ⟨_, rfl⟩)
    · exact upd _ rfl rfl
  case unsettledF0N0 => exact .inl ⟨_, by decide, by decide, rfl⟩
  case unsettledF0Ne => exact .inl ⟨_, by decide, by decide, rfl⟩
  case unknown => exact .inr (.inl ⟨_, rfl⟩)
  case seVxNn => exact upd _ rfl (by rw [State.skipIf_eq])
  case sneVxNn => exact upd _ rfl (by rw [State.skipIf_eq])
  case seVxVy => exact upd _ rfl (by rw [State.skipIf_eq])
  case sneVxVy => exact upd _ rfl (by rw [State.skipIf_eq])
  all_goals exact upd _ rfl rfl

end Sys2Proof.Machine
end

