-- ==== Sys2Proof/Laws/PerInstr.lean ====
section
/-! SUPPORT. Families of statements about every instruction as syntax, one lemma per
constructor (LAWS.json). -/

namespace Sys2Proof.Laws

/-- The opcode family of each operation (spec 30_encoding.md R75); an UNKNOWN word keeps its own. -/
def opcodeFamily : Instr → Nibble
  | .cls => 0x0#4
  | .ret => 0x0#4
  | .jp _ => 0x1#4
  | .call _ => 0x2#4
  | .seVxNn _ _ => 0x3#4
  | .sneVxNn _ _ => 0x4#4
  | .seVxVy _ _ => 0x5#4
  | .ldVxNn _ _ => 0x6#4
  | .addVxNn _ _ => 0x7#4
  | .ldVxVy _ _ => 0x8#4
  | .orVxVy _ _ => 0x8#4
  | .andVxVy _ _ => 0x8#4
  | .xorVxVy _ _ => 0x8#4
  | .addVxVy _ _ => 0x8#4
  | .subVxVy _ _ => 0x8#4
  | .shr _ _ => 0x8#4
  | .shl _ _ => 0x8#4
  | .sneVxVy _ _ => 0x9#4
  | .ldI _ => 0xA#4
  | .jpV0 _ => 0xB#4
  | .jpVx _ _ => 0xB#4
  | .rnd _ _ => 0xC#4
  | .drw _ _ _ => 0xD#4
  | .ldVxDt _ => 0xF#4
  | .ldDtVx _ => 0xF#4
  | .ldStVx _ => 0xF#4
  | .unsettled8xy7 _ _ => 0x8#4
  | .unsettledFx1e _ => 0xF#4
  | .unsettledF0N0 _ => 0x0#4
  | .unsettledF0Ne _ => 0x0#4
  | .unknown w => w.extractLsb' 12 4

/-- The word of an instruction has its family in w[15:12] (R70, R75). -/
def EncodedFamily.Statement (i : Instr) : Prop := fieldFirst (encode i) = opcodeFamily i

theorem EncodedFamily.cls :
    EncodedFamily.Statement (.cls) := rfl
theorem EncodedFamily.ret :
    EncodedFamily.Statement (.ret) := rfl
theorem EncodedFamily.jp (nnn : Addr) :
    EncodedFamily.Statement (.jp nnn) := fieldFirst_addr ..
theorem EncodedFamily.call (nnn : Addr) :
    EncodedFamily.Statement (.call nnn) := fieldFirst_addr ..
theorem EncodedFamily.seVxNn (x : Nibble) (nn : Byte) :
    EncodedFamily.Statement (.seVxNn x nn) := fieldFirst_regByte ..
theorem EncodedFamily.sneVxNn (x : Nibble) (nn : Byte) :
    EncodedFamily.Statement (.sneVxNn x nn) := fieldFirst_regByte ..
theorem EncodedFamily.seVxVy (x y : Nibble) :
    EncodedFamily.Statement (.seVxVy x y) := fieldFirst_regReg ..
theorem EncodedFamily.ldVxNn (x : Nibble) (nn : Byte) :
    EncodedFamily.Statement (.ldVxNn x nn) := fieldFirst_regByte ..
theorem EncodedFamily.addVxNn (x : Nibble) (nn : Byte) :
    EncodedFamily.Statement (.addVxNn x nn) := fieldFirst_regByte ..
theorem EncodedFamily.ldVxVy (x y : Nibble) :
    EncodedFamily.Statement (.ldVxVy x y) := fieldFirst_regReg ..
theorem EncodedFamily.orVxVy (x y : Nibble) :
    EncodedFamily.Statement (.orVxVy x y) := fieldFirst_regReg ..
theorem EncodedFamily.andVxVy (x y : Nibble) :
    EncodedFamily.Statement (.andVxVy x y) := fieldFirst_regReg ..
theorem EncodedFamily.xorVxVy (x y : Nibble) :
    EncodedFamily.Statement (.xorVxVy x y) := fieldFirst_regReg ..
theorem EncodedFamily.addVxVy (x y : Nibble) :
    EncodedFamily.Statement (.addVxVy x y) := fieldFirst_regReg ..
theorem EncodedFamily.subVxVy (x y : Nibble) :
    EncodedFamily.Statement (.subVxVy x y) := fieldFirst_regReg ..
theorem EncodedFamily.shr (x y : Nibble) :
    EncodedFamily.Statement (.shr x y) := fieldFirst_regReg ..
theorem EncodedFamily.shl (x y : Nibble) :
    EncodedFamily.Statement (.shl x y) := fieldFirst_regReg ..
theorem EncodedFamily.sneVxVy (x y : Nibble) :
    EncodedFamily.Statement (.sneVxVy x y) := fieldFirst_regReg ..
theorem EncodedFamily.ldI (nnn : Addr) :
    EncodedFamily.Statement (.ldI nnn) := fieldFirst_addr ..
theorem EncodedFamily.jpV0 (nnn : Addr) :
    EncodedFamily.Statement (.jpV0 nnn) := fieldFirst_addr ..
theorem EncodedFamily.jpVx (x : Nibble) (nnn : Addr) :
    EncodedFamily.Statement (.jpVx x nnn) := fieldFirst_addr ..
theorem EncodedFamily.rnd (x : Nibble) (nn : Byte) :
    EncodedFamily.Statement (.rnd x nn) := fieldFirst_regByte ..
theorem EncodedFamily.drw (x y n : Nibble) :
    EncodedFamily.Statement (.drw x y n) := fieldFirst_regReg ..
theorem EncodedFamily.ldVxDt (x : Nibble) :
    EncodedFamily.Statement (.ldVxDt x) := fieldFirst_regByte ..
theorem EncodedFamily.ldDtVx (x : Nibble) :
    EncodedFamily.Statement (.ldDtVx x) := fieldFirst_regByte ..
theorem EncodedFamily.ldStVx (x : Nibble) :
    EncodedFamily.Statement (.ldStVx x) := fieldFirst_regByte ..
theorem EncodedFamily.unsettled8xy7 (x y : Nibble) :
    EncodedFamily.Statement (.unsettled8xy7 x y) := fieldFirst_regReg ..
theorem EncodedFamily.unsettledFx1e (x : Nibble) :
    EncodedFamily.Statement (.unsettledFx1e x) := fieldFirst_regByte ..
theorem EncodedFamily.unsettledF0N0 (mid : Byte) :
    EncodedFamily.Statement (.unsettledF0N0 mid) := fieldFirst_mid ..
theorem EncodedFamily.unsettledF0Ne (mid : Byte) :
    EncodedFamily.Statement (.unsettledF0Ne mid) := fieldFirst_mid ..
theorem EncodedFamily.unknown (w : Word) :
    EncodedFamily.Statement (.unknown w) := rfl

end Sys2Proof.Laws
end

