-- ==== Sys2Proof/Laws/Step.lean ====
section
/-! SUPPORT. The inversion of `step`: a halted core idles; a running one raises the fetch's
error or executes the word it fetched. -/

namespace Sys2Proof.Machine

variable (s t : State)

/-- A step that answers a next state had legal parameters (R12). -/
theorem step_next_params (h : step s = .next t) : s.params.wf := by
  by_contra hp
  unfold step at h
  rw [if_neg hp] at h
  cases h

/-- A halted core idles (R108). -/
theorem step_of_halted (hp : s.params.wf) (hh : s.halted = true) : step s = .next s.idle := by
  unfold step
  rw [if_pos hp, hh]
  rfl

/-- A running core raises the fetch's error, or executes the word it fetched. -/
theorem step_of_running (hs : s.running) :
    (s.params.memSize ≤ s.pc.toNat + 1 ∧ step s = .next (s.fatal .fetchOutOfBounds)) ∨
    (s.pc.toNat + 1 < s.params.memSize ∧ step s = exec (decode s.params s.compat
      (wordOfBytes (Memory.read s.mem s.pc.toNat) (Memory.read s.mem (s.pc.toNat + 1))))
      s.advance) := by
  obtain ⟨hp, hh⟩ := hs
  unfold step
  rw [if_pos hp, hh]
  simp only [Bool.false_eq_true, if_false]
  cases hf : s.fetchWord with
  | none => exact .inl ⟨(s.fetchWord_eq_none).1 hf, rfl⟩
  | some w =>
    obtain ⟨h1, rfl⟩ := (s.fetchWord_eq_some w).1 hf
    exact .inr ⟨h1, rfl⟩

/-- The bytes at `pc` and `pc + 1` are fetched when both lie in memory. -/
theorem State.fetches_read (h : s.pc.toNat + 1 < s.params.memSize) :
    s.fetches (Memory.read s.mem s.pc.toNat) (Memory.read s.mem (s.pc.toNat + 1)) :=
  ⟨(s.memRead_eq_some ..).2 ⟨by omega, rfl⟩, (s.memRead_eq_some ..).2 ⟨h, rfl⟩⟩

/-- Fetched bytes lie in memory and are what it holds. -/
theorem State.fetches_iff (hi lo : Byte) : s.fetches hi lo ↔
    s.pc.toNat + 1 < s.params.memSize ∧ Memory.read s.mem s.pc.toNat = hi ∧
      Memory.read s.mem (s.pc.toNat + 1) = lo := by
  unfold State.fetches
  rw [s.memRead_eq_some, s.memRead_eq_some]
  exact ⟨fun ⟨⟨_, h1⟩, h2, h3⟩ => ⟨h2, h1, h3⟩,
    fun ⟨h2, h1, h3⟩ => ⟨⟨by omega, h1⟩, h2, h3⟩⟩

/-- Everything a step can do, halted or running. -/
theorem step_cases (h : step s = .next t) :
    (s.halted = true ∧ t = s.idle) ∨
    (s.running ∧ s.params.memSize ≤ s.pc.toNat + 1 ∧ t = s.fatal .fetchOutOfBounds) ∨
    (s.running ∧ s.pc.toNat + 1 < s.params.memSize ∧ exec (decode s.params s.compat
      (wordOfBytes (Memory.read s.mem s.pc.toNat) (Memory.read s.mem (s.pc.toNat + 1))))
      s.advance = .next t) := by
  have hp := step_next_params s t h
  by_cases hh : s.halted = true
  · rw [step_of_halted s hp hh] at h
    cases h
    exact .inl ⟨hh, rfl⟩
  · have hr : s.running := ⟨hp, by simpa using hh⟩
    rcases step_of_running s hr with ⟨h1, h2⟩ | ⟨h1, h2⟩
    · rw [h2] at h
      cases h
      exact .inr (.inl ⟨hr, h1, rfl⟩)
    · exact .inr (.inr ⟨hr, h1, h2 ▸ h⟩)

/-- A run of n + 1 steps is a step and a run of n. -/
theorem core_run_succ (n : Nat) (h : step s = .next t) :
    Host.Core.run Sys2Proof.core (n + 1) s = Host.Core.run Sys2Proof.core n t := by
  have : Sys2Proof.core.step s = .next t := h
  simp only [Host.Core.run, this]

/-- Loading a word keeps memory in its canonical form. -/
theorem State.withFetchWord_mem_wf (nbits w : Nat) (h : Memory.wf s.mem) :
    Memory.wf (s.withFetchWord nbits w).mem :=
  Memory.wf_writeBytes _ _ _ h

end Sys2Proof.Machine
end

