-- ==== Sys2Proof/Tests/Slice0.lean ====
section
/-! SUPPORT. Tests: ill-formed terms the well-formedness check refuses, words written out from
the encodings, small examples from spec/95_test_vectors.md (the source of every expected
value; the vector is named at each test), and a witness for the hypotheses of each
obligation that has any. -/

namespace Sys2Proof.Tests

open Sys2Proof.Machine

/-! ## Helpers -/

/-- The start of the execute-stage vectors: reset values, post-fetch `pc` = 0x202. -/
def start (c : Compat) : State :=
  { State.resetWith Params.default [] c 0 with pc := 0x202#16 }

/-- The same start under other parameters. -/
def startWith (p : Params) (c : Compat) : State :=
  { State.resetWith p [] c 0 with pc := 0x202#16 }

/-- A start with bytes from 0x300 on and `i` pointing at them. -/
def startSprite (p : Params) (bs : List Byte) : State :=
  { State.resetWith p (Memory.writeBytes [] 0x300 bs) .original 0 with
    pc := 0x202#16, i := 0x300#16 }

/-- A small framebuffer, 16 columns by 4 rows. -/
def small (e : DrawEdge) : Params :=
  { Params.default with width := 16, height := 4, drawEdge := e }

/-- Turns one pixel on. -/
def lit (x y : Nat) (s : State) : State := { s with gfx := gfxSetPixel s.params s.gfx x y true }

/-- The start of the cycle vectors: reset values, bytes at `pc`. -/
def loaded (c : Compat) (pc : Word) (bs : List Byte) : State :=
  { State.resetWith Params.default (Memory.writeBytes [] pc.toNat bs) c 0 with pc := pc }

/-- V[x] <- b, with the register's number as a numeral. -/
def setV (x : Nat) (b : Byte) (s : State) : State := s.setReg (BitVec.ofNat 4 x) b

/-- V[x]. -/
def getV (x : Nat) (s : State) : Byte := s.getReg (BitVec.ofNat 4 x)

/-- What an outcome's next state shows. -/
def see {α : Type} (o : StepOutcome) (f : State → α) : Option α :=
  match o with
  | .next t => some (f t)
  | .fault _ => none
  | .refused _ => none

/-- Decodes and executes a word at the execute-stage interface (R109). -/
def run (w : Word) (s : State) : StepOutcome := exec (decode s.params s.compat w) s

/-- `pc`, `halted`, `fault`. -/
def status (s : State) : Word × Bool × FaultCode := (s.pc, s.halted, s.fault)

/-- Row y from column x on, n pixels. -/
def row (x y n : Nat) (s : State) : List Bool := (List.range n).map fun k => s.pixel (x + k) y

/-! ## Well-formedness refuses -/

theorem test_wf_refuses_jpV0_with_x :
    (Instr.jpV0 0x2F0#12).wf Params.default .original = false := by decide

theorem test_wf_refuses_jpV0_in_new_by_mode :
    (Instr.jpV0 0x0F0#12).wf { Params.default with bDecode := .byMode } .new = false := by decide

theorem test_wf_refuses_jpVx_with_another_x :
    (Instr.jpVx 0x3#4 0x2F0#12).wf Params.default .new = false := by decide

theorem test_wf_refuses_jpVx_with_x_zero :
    (Instr.jpVx 0x0#4 0x0F0#12).wf Params.default .new = false := by decide

theorem test_wf_refuses_jpVx_in_original_by_mode :
    (Instr.jpVx 0x2#4 0x2F0#12).wf { Params.default with bDecode := .byMode } .original =
      false := by decide

theorem test_wf_refuses_8xy7_when_unknown :
    (Instr.unsettled8xy7 0x1#4 0x2#4).wf { Params.default with op8xy7 := .unknown } .new =
      false := by decide

theorem test_wf_refuses_Fx1e_when_unknown :
    (Instr.unsettledFx1e 0x3#4).wf { Params.default with opFx1e := .unknown } .new =
      false := by decide

theorem test_wf_refuses_unsettled_00E0_and_00EE :
    (Instr.unsettledF0N0 0x0E#8).wf Params.default .new = false ∧
    (Instr.unsettledF0Ne 0x0E#8).wf Params.default .new = false := by decide

theorem test_wf_refuses_unsettled_family0_when_settled :
    (Instr.unsettledF0N0 0x1E#8).wf { Params.default with f0Decode := .exact } .new = false ∧
    (Instr.unsettledF0Ne 0x1E#8).wf { Params.default with f0Decode := .lastByte } .new =
      false := by decide

theorem test_wf_refuses_unknown_of_a_known_word :
    (Instr.unknown 0x6A5C#16).wf Params.default .new = false ∧
    (Instr.unknown 0x8127#16).wf Params.default .new = false ∧
    (Instr.unknown 0x0000#16).wf Params.default .new = false := by decide

/-! ## Decoding: every constructor by a word written out from R70 and R75 to R79 -/

theorem test_decode_family0 :
    decode Params.default .new 0b0000_0000_1110_0000#16 = .cls ∧
    decode Params.default .new 0b0000_0000_1110_1110#16 = .ret ∧
    decode Params.default .new 0b0000_0001_1110_0000#16 = .unsettledF0N0 0x1E#8 ∧
    decode Params.default .new 0b0000_1110_1110_1110#16 = .unsettledF0Ne 0xEE#8 ∧
    decode Params.default .new 0b0000_0001_0010_0011#16 = .unknown 0x0123#16 := by decide

theorem test_decode_families1to7 :
    decode Params.default .new 0b0001_1010_1011_1100#16 = .jp 0xABC#12 ∧
    decode Params.default .new 0b0010_0001_0010_0011#16 = .call 0x123#12 ∧
    decode Params.default .new 0b0011_0011_0100_0010#16 = .seVxNn 0x3#4 0x42#8 ∧
    decode Params.default .new 0b0100_0011_0100_0010#16 = .sneVxNn 0x3#4 0x42#8 ∧
    decode Params.default .new 0b0101_0001_0010_1111#16 = .seVxVy 0x1#4 0x2#4 ∧
    decode Params.default .new 0b0110_1010_0101_1100#16 = .ldVxNn 0xA#4 0x5C#8 ∧
    decode Params.default .new 0b0111_0000_0000_0011#16 = .addVxNn 0x0#4 0x03#8 := by decide

theorem test_decode_family8 :
    decode Params.default .new 0b1000_0001_0010_0000#16 = .ldVxVy 0x1#4 0x2#4 ∧
    decode Params.default .new 0b1000_0001_0010_0001#16 = .orVxVy 0x1#4 0x2#4 ∧
    decode Params.default .new 0b1000_0001_0010_0010#16 = .andVxVy 0x1#4 0x2#4 ∧
    decode Params.default .new 0b1000_0001_0010_0011#16 = .xorVxVy 0x1#4 0x2#4 ∧
    decode Params.default .new 0b1000_0001_0010_0100#16 = .addVxVy 0x1#4 0x2#4 ∧
    decode Params.default .new 0b1000_0001_0010_0101#16 = .subVxVy 0x1#4 0x2#4 ∧
    decode Params.default .new 0b1000_0001_0010_0110#16 = .shr 0x1#4 0x2#4 ∧
    decode Params.default .new 0b1000_0001_0010_1110#16 = .shl 0x1#4 0x2#4 ∧
    decode Params.default .new 0b1000_0001_0010_0111#16 = .unsettled8xy7 0x1#4 0x2#4 := by decide

theorem test_decode_families9toD :
    decode Params.default .new 0b1001_0001_0010_0101#16 = .sneVxVy 0x1#4 0x2#4 ∧
    decode Params.default .new 0b1010_0001_0010_0011#16 = .ldI 0x123#12 ∧
    decode Params.default .new 0b1011_0000_1111_0000#16 = .jpV0 0x0F0#12 ∧
    decode Params.default .new 0b1011_0010_1111_0000#16 = .jpVx 0x2#4 0x2F0#12 ∧
    decode Params.default .new 0b1100_0011_0000_1111#16 = .rnd 0x3#4 0x0F#8 ∧
    decode Params.default .new 0b1101_0001_0010_1111#16 = .drw 0x1#4 0x2#4 0xF#4 := by decide

theorem test_decode_familyF :
    decode Params.default .new 0b1111_0101_0000_0111#16 = .ldVxDt 0x5#4 ∧
    decode Params.default .new 0b1111_0101_0001_0101#16 = .ldDtVx 0x5#4 ∧
    decode Params.default .new 0b1111_0010_0001_1000#16 = .ldStVx 0x2#4 ∧
    decode Params.default .new 0b1111_0011_0001_1110#16 = .unsettledFx1e 0x3#4 := by decide

/-- V-Y7 to V-Y10, R81, R79, R77. -/
theorem test_decode_unknown_words :
    ([0x00E1#16, 0xE09E#16, 0xE0A1#16, 0xF033#16, 0xF055#16, 0xF065#16, 0xF00A#16, 0xF029#16,
      0x8008#16, 0x800D#16, 0x800F#16].map fun w =>
        decode Params.default .new w == .unknown w) = List.replicate 11 true := by decide

/-- V-Y15: 0000 under each `P_F0_DECODE`. -/
theorem test_decode_0000_by_parameter :
    ([F0Decode.unsettled, .exact, .lastByte, .lastNibble].map fun f =>
      decode { Params.default with f0Decode := f } .new 0x0000#16) =
      [.unsettledF0N0 0x00#8, .unknown 0x0000#16, .unknown 0x0000#16, .cls] := by decide

/-- V-Y16: 01EE under each `P_F0_DECODE`. -/
theorem test_decode_01EE_by_parameter :
    ([F0Decode.unsettled, .exact, .lastByte, .lastNibble].map fun f =>
      decode { Params.default with f0Decode := f } .new 0x01EE#16) =
      [.unsettledF0Ne 0x1E#8, .unknown 0x01EE#16, .ret, .ret] := by decide

/-- V-Y17: 00E0 and 00EE under each `P_F0_DECODE`. -/
theorem test_decode_00E0_00EE_by_parameter :
    ([F0Decode.unsettled, .exact, .lastByte, .lastNibble].map fun f =>
      (decode { Params.default with f0Decode := f } .new 0x00E0#16,
        decode { Params.default with f0Decode := f } .new 0x00EE#16)) =
      List.replicate 4 (.cls, .ret) := by decide

/-- V-Y13, V-Y14. -/
theorem test_decode_parameter_rows :
    decode { Params.default with op8xy7 := .unknown } .new 0x8127#16 = .unknown 0x8127#16 ∧
    decode { Params.default with op8xy7 := .subN } .new 0x8127#16 =
      .unsettled8xy7 0x1#4 0x2#4 ∧
    decode { Params.default with opFx1e := .unknown } .new 0xF31E#16 = .unknown 0xF31E#16 ∧
    decode { Params.default with opFx1e := .addI } .new 0xF31E#16 = .unsettledFx1e 0x3#4 := by
  decide

/-- V-C24, V-C25. -/
theorem test_decode_familyB_by_mode :
    decode { Params.default with bDecode := .byMode } .original 0xB2F0#16 = .jpV0 0x2F0#12 ∧
    decode { Params.default with bDecode := .byMode } .new 0xB0F0#16 =
      .jpVx 0x0#4 0x0F0#12 := by decide

/-- R70, R52: the host's table word, and bytes in memory order. -/
theorem test_decode_table_word_and_bytes :
    decodeTableWord 16 0x8014 = some (.addVxVy 0x0#4 0x1#4) ∧
    encodeBytes (.addVxVy 0x0#4 0x1#4) = [0x80#8, 0x14#8] := by decide

/-! ## The cycle -/

/-- V-Y1: big-endian. -/
theorem test_cycle_big_endian :
    see (step (loaded .original 0x200#16 [0xA1#8, 0x23#8])) (fun t => (t.i, t.pc, t.result)) =
      some (0x123#16, 0x202#16, some .ok) := by decide

/-- V-Y3: a fetch past memory. -/
theorem test_cycle_fetch_out_of_bounds :
    see (step (loaded .original 0xFFF#16 [])) status =
      some (0xFFF#16, true, .fetchOutOfBounds) := by decide

/-- V-Y5: an odd `pc`. -/
theorem test_cycle_odd_pc :
    see (step (loaded .original 0x201#16 [0x60#8, 0x12#8])) (fun t => (getV 0 t, t.pc)) =
      some (0x12#8, 0x203#16) := by decide

/-- V-Y18: a halted core. -/
theorem test_cycle_halted :
    see (step ((start .new).fatal .stackUnderflow)) (fun t => (status t, t.result)) =
      some ((0x202#16, true, .stackUnderflow), none) := by decide

/-- P7 (spec/95_test_vectors.md part 3): the word `withFetchWord` loads is the one that runs. -/
theorem test_cycle_runs_the_loaded_word :
    see (step (State.reset.withFetchWord 16 0x1FFF)) status = some (0xFFF#16, false, .none) := by
  decide

/-! ## Control flow -/

/-- V-C2. -/
theorem test_ret_last_pushed_first :
    see (run 0x00EE#16 { start .new with stack := [0x20E#16, 0x206#16] })
      (fun t => (t.pc, t.stack)) = some (0x20E#16, [0x206#16]) := by decide

/-- V-C3, P6. -/
theorem test_ret_underflow :
    see (run 0x00EE#16 (start .new)) (fun t => (status t, t.result)) =
      some ((0x202#16, true, .stackUnderflow), some (.fatal .stackUnderflow)) := by decide

/-- V-C4. -/
theorem test_jp : see (run 0x1ABC#16 (start .new)) (fun t => t.pc) = some 0x0ABC#16 := by decide

/-- V-C6. -/
theorem test_call :
    see (run 0x2400#16 { start .new with pc := 0x20C#16, stack := [0x202#16] })
      (fun t => (t.pc, t.stack)) = some (0x400#16, [0x20C#16, 0x202#16]) := by decide

/-- V-C7. -/
theorem test_call_overflow :
    see (run 0x2400#16 { startWith { Params.default with stackLimit := some 16 } .new with
        stack := List.replicate 16 0x300#16 })
      (fun t => (status t, t.stack.length)) =
      some ((0x202#16, true, .stackOverflow), 16) := by decide

/-- V-C9. -/
theorem test_seVxNn :
    see (run 0x3342#16 (setV 3 0x42 (start .new))) (fun t => t.pc) = some 0x204#16 ∧
    see (run 0x3343#16 (setV 3 0x42 (start .new))) (fun t => t.pc) = some 0x202#16 := by decide

/-- V-C11. -/
theorem test_sneVxNn :
    see (run 0x4343#16 (setV 3 0x42 (start .new))) (fun t => t.pc) = some 0x204#16 ∧
    see (run 0x4342#16 (setV 3 0x42 (start .new))) (fun t => t.pc) = some 0x202#16 := by decide

/-- V-C13, V-C14. -/
theorem test_seVxVy :
    see (run 0x5120#16 (setV 1 0x07 (setV 2 0x08 (start .new)))) (fun t => t.pc) =
      some 0x202#16 ∧
    see (run 0x5110#16 (setV 1 0x99 (start .new))) (fun t => t.pc) = some 0x204#16 := by decide

/-- V-C15, V-C16. -/
theorem test_sneVxVy :
    see (run 0x9125#16 (setV 1 0x07 (setV 2 0x08 (start .new)))) (fun t => t.pc) =
      some 0x204#16 ∧
    see (run 0x9110#16 (setV 1 0x99 (start .new))) (fun t => t.pc) = some 0x202#16 := by decide

/-- V-C19, V-C20. -/
theorem test_jpV0 :
    see (run 0xB0FF#16 (setV 0 0xFF (start .original))) status =
      some (0x1FE#16, false, .none) ∧
    see (run 0xB0F0#16 (setV 0 0x10 (start .new))) status =
      some (0x202#16, true, .configMismatch) := by decide

/-- V-C23, V-C21. -/
theorem test_jpVx :
    see (run 0xBFFF#16 (setV 15 0xFF (start .new))) status = some (0x10FE#16, false, .none) ∧
    see (run 0xB2F0#16 (setV 2 0x10 (start .original))) status =
      some (0x202#16, true, .configMismatch) := by decide

/-! ## Register ALU, index register, random byte -/

/-- L1-1, V-A2. -/
theorem test_ldVxNn :
    see (run 0x6A5C#16 (start .new)) (getV 10) = some 0x5C#8 ∧
    see (run 0x6F00#16 (setV 15 0x33 (start .new))) (getV 15) = some 0x00#8 := by decide

/-- V-A3, V-A4. -/
theorem test_addVxNn :
    see (run 0x7001#16 (setV 0 0xFF (setV 15 0x07 (start .new)))) (fun t => (getV 0 t, getV 15 t)) =
      some (0x00#8, 0x07#8) ∧
    see (run 0x7F01#16 (setV 15 0xFF (start .new))) (getV 15) = some 0x00#8 := by decide

/-- V-A7. -/
theorem test_ldVxVy :
    see (run 0x8F10#16 (setV 1 0x33 (setV 15 0x01 (start .new)))) (getV 15) =
      some 0x33#8 := by decide

/-- V-A8. -/
theorem test_orVxVy :
    see (run 0x8011#16 (setV 0 0xF0 (setV 1 0x0F (setV 15 0x05 (start .new)))))
      (fun t => (getV 0 t, getV 15 t)) = some (0xFF#8, 0x05#8) := by decide

/-- V-A9. -/
theorem test_andVxVy :
    see (run 0x8012#16 (setV 0 0xF0 (setV 1 0x3C (setV 15 0x05 (start .new)))))
      (fun t => (getV 0 t, getV 15 t)) = some (0x30#8, 0x05#8) := by decide

/-- V-A10. -/
theorem test_xorVxVy :
    see (run 0x8013#16 (setV 0 0xF0 (setV 1 0x3C (setV 15 0x05 (start .new)))))
      (fun t => (getV 0 t, getV 15 t)) = some (0xCC#8, 0x05#8) := by decide

/-- L1-3, V-A14. -/
theorem test_addVxVy :
    see (run 0x8014#16 (setV 0 0xFF (setV 1 0x01 (start .new)))) (fun t => (getV 0 t, getV 15 t)) =
      some (0x00#8, 1#8) ∧
    see (run 0x8014#16 (setV 0 0x7F (setV 1 0x80 (setV 15 1 (start .new)))))
      (fun t => (getV 0 t, getV 15 t)) = some (0xFF#8, 0#8) := by decide

/-- V-A16, V-A18: the flag last, the old VF as operand. -/
theorem test_addVxVy_with_VF :
    see (run 0x8F14#16 (setV 15 0x10 (setV 1 0xF5 (start .new)))) (getV 15) = some 1#8 ∧
    see (run 0x80F4#16 (setV 0 0x01 (setV 15 0xFF (start .new))))
      (fun t => (getV 0 t, getV 15 t)) = some (0x00#8, 1#8) := by decide

/-- L1-4, V-A20, V-A23. -/
theorem test_subVxVy :
    see (run 0x8015#16 (setV 0 0x23 (setV 1 0x24 (start .new)))) (fun t => (getV 0 t, getV 15 t)) =
      some (0xFF#8, 0#8) ∧
    see (run 0x8015#16 (setV 0 0x42 (setV 1 0x42 (start .new)))) (fun t => (getV 0 t, getV 15 t)) =
      some (0x00#8, 1#8) ∧
    see (run 0x8F15#16 (setV 15 0x10 (setV 1 0x20 (start .new)))) (getV 15) =
      some 0#8 := by decide

/-- L1-5, V-A31. -/
theorem test_shr :
    see (run 0x8016#16 (setV 0 0x80 (setV 1 0x23 (start .original))))
      (fun t => (getV 0 t, getV 15 t)) = some (0x11#8, 1#8) ∧
    see (run 0x8016#16 (setV 0 0x80 (setV 1 0x23 (start .new))))
      (fun t => (getV 0 t, getV 15 t)) = some (0x40#8, 0#8) ∧
    see (run 0x8F06#16 (setV 15 0x03 (start .new))) (getV 15) = some 1#8 := by decide

/-- V-A32, V-A33. -/
theorem test_shl :
    see (run 0x801E#16 (setV 1 0x81 (start .original))) (fun t => (getV 0 t, getV 15 t)) =
      some (0x02#8, 1#8) ∧
    see (run 0x801E#16 (setV 0 0x40 (setV 1 0xFF (start .new))))
      (fun t => (getV 0 t, getV 15 t)) = some (0x80#8, 0#8) := by decide

/-- V-A36, V-A37. -/
theorem test_subN :
    see (run 0x8017#16 (setV 0 0x23 (setV 1 0x24
      (startWith { Params.default with op8xy7 := .subN } .new))))
      (fun t => (getV 0 t, getV 15 t)) = some (0x01#8, 1#8) ∧
    see (run 0x8017#16 (setV 0 0x24 (setV 1 0x23
      (startWith { Params.default with op8xy7 := .subN } .new))))
      (fun t => (getV 0 t, getV 15 t)) = some (0xFF#8, 0#8) := by decide

/-- V-Y13: the default 8XY7. -/
theorem test_8xy7_unsettled :
    see (run 0x8127#16 (start .new)) status = some (0x202#16, true, .unsettledEncoding) := by decide

/-- V-A39. -/
theorem test_ldI : see (run 0xAFFF#16 (start .new)) (fun t => t.i) = some 0x0FFF#16 := by decide

/-- V-A40, V-A43. -/
theorem test_rnd :
    see (run 0xC30F#16 { start .new with randPort := some 0xAB#8 }) (getV 3) = some 0x0B#8 ∧
    see (run 0xCFF0#16 { start .new with randPort := some 0xFF#8 }) (getV 15) =
      some 0xF0#8 := by decide

/-! ## Display -/

/-- V-D1. -/
theorem test_cls :
    see (run 0x00E0#16 (lit 1 0 (setV 15 1 (start .new))))
      (fun t => (t.pixel 1 0, getV 15 t)) = some (false, 1#8) := by decide

/-- L1-7 (a collision on a lit row), V-D4 (byte i + r is row r, bit 7 is leftmost), V-D6 (the
origin wraps), V-D17 (VF as the row's register), V-D5 (no rows). -/
theorem test_drw_pixels_and_flag :
    see (run 0xD011#16 { startSprite (small .fault) [0x41#8] with gfx := List.replicate 64 true })
      (fun t => (row 0 0 8 t, getV 15 t)) =
      some ([true, false, true, true, true, true, true, false], 1#8) ∧
    see (run 0xD012#16 (startSprite Params.default [0x80#8, 0x01#8]))
      (fun t => (row 0 0 8 t, row 0 1 8 t, getV 15 t)) =
      some ([true, false, false, false, false, false, false, false],
        [false, false, false, false, false, false, false, true], 0#8) ∧
    see (run 0xD011#16 (setV 0 0x41 (setV 1 0x22 (startSprite Params.default [0x80#8]))))
      (fun t => t.pixel 1 2) = some true ∧
    see (run 0xD0F1#16 (setV 15 0x01 (startSprite Params.default [0x80#8])))
      (fun t => (t.pixel 0 1, t.pixel 0 0, getV 15 t)) = some (true, false, 0#8) ∧
    see (run 0xD010#16 (setV 15 1 { start .new with i := 0xFFF#16 }))
      (fun t => (t.halted, getV 15 t)) = some (false, 0#8) := by decide

/-- V-D7, V-D8, V-D9 (column 60 under each `P_DRAW_EDGE`), V-D12 on a framebuffer of four rows,
V-D13 and V-D14 (memory is checked before the edge). -/
theorem test_drw_edges_and_errors :
    see (run 0xD011#16 (setV 0 0x3C (startSprite Params.default [0x00#8]))) status =
      some (0x202#16, true, .drawOutOfBounds) ∧
    see (run 0xD011#16 (setV 0 0x3C (startSprite { Params.default with drawEdge := .clip }
      [0xFF#8]))) (fun t => (row 0 0 5 t, row 59 0 5 t, getV 15 t)) =
      some ([false, false, false, false, false], [false, true, true, true, true], 0#8) ∧
    see (run 0xD011#16 (setV 0 0x3C (startSprite { Params.default with drawEdge := .wrap }
      [0xFF#8]))) (fun t => (row 0 0 5 t, row 59 0 5 t, getV 15 t)) =
      some ([true, true, true, true, false], [false, true, true, true, true], 0#8) ∧
    see (run 0xD012#16 (setV 1 0x03 (startSprite (small .wrap) [0x80#8, 0x80#8])))
      (fun t => (t.pixel 0 3, t.pixel 0 0, t.pixel 0 1)) = some (true, true, false) ∧
    see (run 0xD013#16 { start .new with i := 0xFFE#16 }) status =
      some (0x202#16, true, .memReadOutOfBounds) ∧
    see (run 0xD013#16 (setV 0 0x3C { start .new with i := 0xFFE#16 })) status =
      some (0x202#16, true, .memReadOutOfBounds) := by decide

/-! ## Timers, unassigned words -/

/-- V-T1. -/
theorem test_ldVxDt :
    see (run 0xF507#16 { start .new with dt := 0x3C#8 }) (getV 5) = some 0x3C#8 := by decide

/-- V-T3. -/
theorem test_ldDtVx :
    see (run 0xF515#16 (setV 5 0x3C (start .new))) (fun t => (t.dt, t.st)) =
      some (0x3C#8, 0x00#8) := by decide

/-- V-T5. -/
theorem test_ldStVx :
    see (run 0xF218#16 (setV 2 0x05 (start .new))) (fun t => (t.dt, t.st)) =
      some (0x00#8, 0x05#8) := by decide

/-- V-T7. -/
theorem test_addI :
    see (run 0xF11E#16 (setV 1 0xFF
      { startWith { Params.default with opFx1e := .addI } .new with i := 0xFFF#16 }))
      (fun t => t.i) = some 0x10FE#16 := by decide

/-- V-Y14: the default FX1E. -/
theorem test_Fx1e_unsettled :
    see (run 0xF31E#16 (start .new)) status = some (0x202#16, true, .unsettledEncoding) := by decide

/-- V-Y11, V-Y12. -/
theorem test_family0_unsettled :
    see (step (loaded .new 0x200#16 [0x00#8, 0x00#8])) status =
      some (0x202#16, true, .unsettledEncoding) ∧
    see (run 0x0EEE#16 (start .new)) status =
      some (0x202#16, true, .unsettledEncoding) := by decide

/-- V-Y6, V-Y9. -/
theorem test_unknown :
    see (step (loaded .new 0x200#16 [0x01#8, 0x23#8])) (fun t => (status t, t.result)) =
      some ((0x202#16, false, .none), some (.warn 0x0123#16)) ∧
    see (run 0xF033#16 (start .new)) (fun t => (t.mem, t.result)) =
      some ([], some (.warn 0xF033#16)) := by decide

/-! ## Witnesses: states and operands that meet an obligation's hypotheses together -/

theorem loaded_gfx (c : Compat) (pc : Word) (bs : List Byte) :
    (loaded c pc bs).gfx.length =
      (loaded c pc bs).params.height * (loaded c pc bs).params.width :=
  List.length_replicate

theorem start_gfx (c : Compat) :
    (start c).gfx.length = (start c).params.height * (start c).params.width :=
  List.length_replicate

theorem startSprite_gfx (p : Params) (bs : List Byte) :
    (startSprite p bs).gfx.length =
      (startSprite p bs).params.height * (startSprite p bs).params.width :=
  List.length_replicate

/-- A state of a run: one byte pair loaded, one return address on the stack. -/
def inRun : State := { loaded .new 0x200#16 [0x60#8, 0x12#8] with stack := [0x300#16] }

theorem inRun_inv : inRun.Inv :=
  have hp : inRun.params = Params.default := rfl
  have hm : inRun.mem = [(0x200, 0x60#8), (0x201, 0x12#8)] := by decide
  { params := by decide
    gfx := loaded_gfx .new 0x200#16 [0x60#8, 0x12#8]
    mem := by rw [hm]; decide
    memRange := by rw [hm, hp]; decide
    fault := by decide
    stack := fun k h => by rw [hp] at h; cases h
    returns := fun a h => by cases List.mem_singleton.1 h; decide }

theorem witness_ResetStateMeetsTheInvariant :
    Params.default.wf ∧ Memory.wf [(0x200, 0x60#8), (0xFFF, 0x12#8)] ∧
    ∀ cell ∈ ([(0x200, 0x60#8), (0xFFF, 0x12#8)] : Memory), cell.1 < Params.default.memSize := by
  decide

theorem witness_EveryStepKeepsTheInvariant : ∃ t, inRun.Inv ∧ step inRun = .next t :=
  ⟨_, inRun_inv, rfl⟩

theorem witness_EveryMoveSequenceKeepsTheInvariant :
    inRun.Inv ∧ ∀ h, Move.host h ∈ [Move.cycle, .host (.writeDt 0x3C#8),
      .host (.reset [(0x200, 0x60#8)] .original), .cycle] → h.legal inRun.params := by
  refine ⟨inRun_inv, fun h hm => ?_⟩
  simp only [List.mem_cons, Move.host.injEq, List.not_mem_nil, reduceCtorEq, or_false,
    false_or] at hm
  rcases hm with rfl | rfl
  · trivial
  · exact ⟨by decide, by decide⟩

/-- Both clauses, at the last address a fetch is allowed at and the first it is not. -/
theorem witness_CycleFetchesAdvancesAndExecutes :
    (State.running (loaded .new 0xFFE#16 [0x12#8, 0x00#8]) ∧ 0xFFE + 1 < Params.default.memSize) ∧
    State.running (loaded .new 0xFFF#16 []) ∧ Params.default.memSize ≤ 0xFFF + 1 := by
  refine ⟨⟨⟨by decide, rfl⟩, by decide⟩, ⟨by decide, rfl⟩, by decide⟩

theorem witness_StepRunsTheEncodedInstruction :
    State.running (loaded .new 0xFFE#16 [0xB2#8, 0xF0#8]) ∧
    (Instr.jpVx 0x2#4 0x2F0#12).wf Params.default .new = true ∧
    (loaded .new 0xFFE#16 [0xB2#8, 0xF0#8]).fetches 0xB2#8 0xF0#8 ∧
    encodeBytes (.jpVx 0x2#4 0x2F0#12) = [0xB2#8, 0xF0#8] :=
  ⟨⟨by decide, rfl⟩, by decide, ⟨by decide, by decide⟩, by decide⟩

theorem witness_LoadedWordRunsNext :
    State.running (loaded .new 0xFFE#16 [0x12#8, 0x00#8]) ∧
    Memory.wf (loaded .new 0xFFE#16 [0x12#8, 0x00#8]).mem ∧
    (loaded .new 0xFFE#16 [0x12#8, 0x00#8]).pc.toNat + 1 < Params.default.memSize :=
  ⟨⟨by decide, rfl⟩, by decide, by decide⟩

theorem witness_HaltedCoreIgnoresStepRequests :
    ((start .new).fatal .stackUnderflow).params.wf ∧
    ((start .new).fatal .stackUnderflow).halted = true := ⟨by decide, rfl⟩

theorem witness_EveryCycleReportsOneOutcome : State.running (start .new) := ⟨by decide, rfl⟩

/-- Both values of the post-error `pc`: a fetch past memory, and a return with an empty stack. -/
theorem witness_FatalErrorIsPrecise :
    (∃ t, State.running (loaded .new 0xFFF#16 []) ∧ step (loaded .new 0xFFF#16 []) = .next t ∧
      t.halted = true) ∧
    ∃ t, State.running (loaded .new 0x200#16 [0x00#8, 0xEE#8]) ∧
      step (loaded .new 0x200#16 [0x00#8, 0xEE#8]) = .next t ∧ t.halted = true :=
  ⟨⟨_, ⟨by decide, rfl⟩, rfl, rfl⟩, ⟨_, ⟨by decide, rfl⟩, rfl, rfl⟩⟩

theorem witness_StepKeepsMemoryModeAndParameters :
    ∃ t, step (loaded .new 0x200#16 [0x60#8, 0x12#8]) = .next t := ⟨_, rfl⟩

theorem witness_MemoryReadsTheResetImage : ∃ t,
    (∀ m ∈ [Move.cycle, .host (.writeDt 0x3C#8), .host (.supplyRandom 0xAB#8)],
      m.isReset = false) ∧
    applyMoves [Move.cycle, .host (.writeDt 0x3C#8), .host (.supplyRandom 0xAB#8)]
      (State.resetWith Params.default [(0x200, 0x60#8), (0x201, 0x12#8)] .new 0) = .next t :=
  ⟨_, by decide, rfl⟩

theorem witness_DecodeOfEncodeIsTheInstruction :
    (Instr.jpVx 0xF#4 0xFFF#12).wf Params.default .new = true ∧
    (Instr.jpV0 0xFFF#12).wf { Params.default with bDecode := .byMode } .original = true ∧
    (Instr.unsettledF0N0 0xFF#8).wf Params.default .new = true ∧
    (Instr.unknown 0xF033#16).wf Params.default .new = true := by decide

theorem witness_EncodeOfDecodeIsTheWord :
    (fieldFirst 0x0123#16 = 0x0#4 →
      Params.default.f0Decode = .unsettled ∨ Params.default.f0Decode = .exact) ∧
    fieldFirst 0x0123#16 ≠ 0x5#4 ∧ fieldFirst 0x0123#16 ≠ 0x9#4 := by decide

theorem witness_UnknownWordsDecodeToUnknown :
    decode Params.default .new 0xF033#16 = .unknown 0xF033#16 ∧
    unknownWord Params.default 0xF033#16 = true := by decide

theorem witness_ModeChangesDecodingOnlyInFamilyB :
    decode { Params.default with bDecode := .byMode } .original 0xB2F0#16 ≠
      decode { Params.default with bDecode := .byMode } .new 0xB2F0#16 := by decide

/-- Every word below 0x1000 falls under one case of each reading; the cases' edges. -/
theorem witness_Family0FollowsItsParameter :
    (0x00E0#16).toNat < 0x1000 ∧ (0x00EE#16).toNat = 0xEE ∧
    ((0x01E0#16).toNat ≠ 0xE0 ∧ (0x01E0#16).toNat % 16 = 0x0 ∧ (0x01E0#16).toNat % 256 = 0xE0) ∧
    ((0x0FEE#16).toNat ≠ 0xEE ∧ (0x0FEE#16).toNat % 16 = 0xE ∧ (0x0FEE#16).toNat % 256 = 0xEE) ∧
    ((0x0FFF#16).toNat < 0x1000 ∧ (0x0FFF#16).toNat % 16 ≠ 0x0 ∧ (0x0FFF#16).toNat % 16 ≠ 0xE ∧
      (0x0FFF#16).toNat % 256 ≠ 0xE0 ∧ (0x0FFF#16).toNat % 256 ≠ 0xEE) ∧
    Params.default.f0Decode = .unsettled ∧
    ({ Params.default with f0Decode := .exact } : Params).f0Decode = .exact ∧
    ({ Params.default with f0Decode := .lastByte } : Params).f0Decode = .lastByte ∧
    ({ Params.default with f0Decode := .lastNibble } : Params).f0Decode = .lastNibble := by decide

theorem witness_FamilyBFollowsItsParameter :
    (Params.default.bDecode = .byXNibble ∧ (0x1#4 : Nibble) ≠ 0x0#4) ∧
    ({ Params.default with bDecode := .byMode } : Params).bDecode = .byMode := by decide

theorem witness_UnknownWordIsANoOpWithAWarning :
    State.running (loaded .new 0xFFE#16 [0xE0#8, 0x9E#8]) ∧
    (loaded .new 0xFFE#16 [0xE0#8, 0x9E#8]).fetches 0xE0#8 0x9E#8 ∧
    unknownWord Params.default (0xE0#8 ++ 0x9E#8) = true :=
  ⟨⟨by decide, rfl⟩, ⟨by decide, by decide⟩, by decide⟩

theorem witness_UnsettledWordRaisesUnsettledEncoding :
    State.running (loaded .new 0x200#16 [0x81#8, 0x27#8]) ∧
    (loaded .new 0x200#16 [0x81#8, 0x27#8]).fetches 0x81#8 0x27#8 ∧
    unsettledWord Params.default (0x81#8 ++ 0x27#8) = true ∧
    unsettledWord Params.default 0xF31E#16 = true ∧ unsettledWord Params.default 0x0000#16 = true ∧
    unsettledWord Params.default 0x0FFE#16 = true :=
  ⟨⟨by decide, rfl⟩, ⟨by decide, by decide⟩, by decide⟩

/-- The three values of `P_8XY7`, and of `P_FX1E`. -/
theorem witness_Op8xy7FollowsItsParameter :
    (startWith { Params.default with op8xy7 := .subN } .new).params.op8xy7 = .subN ∧
    (0xE#4 : Nibble) ≠ 0xF#4 ∧
    (startWith { Params.default with op8xy7 := .unknown } .new).params.op8xy7 = .unknown ∧
    (start .new).params.op8xy7 = .unsettled := by decide

theorem witness_OpFx1eFollowsItsParameter :
    (startWith { Params.default with opFx1e := .addI } .new).params.opFx1e = .addI ∧
    (startWith { Params.default with opFx1e := .unknown } .new).params.opFx1e = .unknown ∧
    (start .new).params.opFx1e = .unsettled := by decide

theorem witness_ReturnPopsOrUnderflows :
    (start .new).stack = [] ∧
    ({ start .new with stack := [0xFFFF#16] } : State).stack = 0xFFFF#16 :: [] := by decide

theorem witness_JumpSetsThePc :
    State.running (start .new) ∧ (start .new).params.memSize ≤ (0xFFF#12 : Addr).toNat + 1 :=
  ⟨⟨by decide, rfl⟩, by decide⟩

/-- Below a limit of 1, and at it. -/
theorem witness_CallPushesTheReturnAddress :
    (startWith { Params.default with stackLimit := some 1 } .new).params.stackLimit ≠
      some (startWith { Params.default with stackLimit := some 1 } .new).stack.length ∧
    (startWith { Params.default with stackLimit := some 1 } .new).params.stackLimit =
      some ({ startWith { Params.default with stackLimit := some 1 } .new with
        stack := [0x202#16] } : State).stack.length := by decide

theorem witness_ReturnUndoesCall :
    (start .new).params.stackLimit ≠ some (start .new).stack.length := by decide

theorem witness_JumpWithOffsetBehindItsGate :
    (start .original).compat = .original ∧ (start .new).compat = .new := by decide

/-- The largest target: BFFF with VF = 0xFF in New mode gives 0x10FE. -/
theorem witness_PcNeverPasses10FE :
    (setV 15 0xFF (loaded .new 0x200#16 [0xBF#8, 0xFF#8])).params.memSize ≤ 4096 ∧
    (setV 15 0xFF (loaded .new 0x200#16 [0xBF#8, 0xFF#8])).pc.toNat ≤ 0x10FE ∧
    (∀ a ∈ (setV 15 0xFF (loaded .new 0x200#16 [0xBF#8, 0xFF#8])).stack, a.toNat ≤
      (setV 15 0xFF (loaded .new 0x200#16 [0xBF#8, 0xFF#8])).params.memSize) ∧
    see (step (setV 15 0xFF (loaded .new 0x200#16 [0xBF#8, 0xFF#8]))) (fun t => t.pc) =
      some 0x10FE#16 :=
  ⟨by decide, by decide, fun _ h => absurd h List.not_mem_nil, by decide⟩

/-- Both cases of "x is not VF" in the flag-setting instructions. -/
theorem witness_FlagInstructions : (0xE#4 : Nibble) ≠ 0xF#4 ∧ ¬(0xF#4 : Nibble) ≠ 0xF#4 := by
  decide

/-- A source in each mode, with both shifted-out bits set. -/
theorem witness_ShiftsTakeTheirSourceFromTheMode :
    (0x81#8 : Byte) = (if (setV 1 0x81 (start .original)).compat = .original
      then (setV 1 0x81 (start .original)).getReg 1
      else (setV 1 0x81 (start .original)).getReg 0) ∧
    (0x81#8 : Byte) = (if (setV 0 0x81 (start .new)).compat = .original
      then (setV 0 0x81 (start .new)).getReg 1
      else (setV 0 0x81 (start .new)).getReg 0) := by decide

theorem witness_RandomByteIsMaskedAndFree :
    ({ start .new with randPort := some 0xFF#8 } : State).randPort = some 0xFF#8 ∧
    (start .new).randPort = none ∧ (0x2#4 : Nibble) ≠ 0x3#4 := by decide

theorem witness_IndexStaysIn12Bits : ∃ t,
    (loaded .new 0x200#16 [0xAF#8, 0xFF#8]).params.opFx1e ≠ .addI ∧
    (loaded .new 0x200#16 [0xAF#8, 0xFF#8]).i.toNat ≤ 0x0FFF ∧
    step (loaded .new 0x200#16 [0xAF#8, 0xFF#8]) = .next t ∧ t.i = 0x0FFF#16 :=
  ⟨_, by decide, by decide, rfl, rfl⟩

theorem witness_FlagsAreZeroOrOne :
    (∃ t, exec (.addVxVy 0x0#4 0x1#4) (start .new) = .next t ∧ t.halted = false) ∧
    (∃ t, exec (.subVxVy 0x0#4 0x1#4) (start .new) = .next t ∧ t.halted = false) ∧
    (∃ t, exec (.shr 0x0#4 0x1#4) (start .new) = .next t ∧ t.halted = false) ∧
    (∃ t, exec (.shl 0x0#4 0x1#4) (start .new) = .next t ∧ t.halted = false) ∧
    ∃ t, exec (.drw 0x0#4 0x1#4 0x1#4) (start .new) = .next t ∧ t.halted = false :=
  ⟨⟨_, rfl, rfl⟩, ⟨_, rfl, rfl⟩, ⟨_, rfl, rfl⟩, ⟨_, rfl, rfl⟩, ⟨_, rfl, rfl⟩⟩

theorem witness_ClearTurnsEveryPixelOff :
    (start .new).gfx.length = (start .new).params.height * (start .new).params.width ∧
    ∀ x y, x < (start .new).params.width → y < (start .new).params.height →
      (start .new).pixel x y = false := by
  refine ⟨start_gfx _, fun x y _ _ => ?_⟩
  simp only [State.pixel, gfxPixel, start, State.resetWith, List.getD_eq_getElem?_getD,
    List.getElem?_replicate]
  split <;> rfl

/-- The last position inside, (56, 30) with two rows, and one past the edge under Clip. -/
theorem witness_DrawXorsTheSprite :
    (State.params (setV 0 0x38 (setV 1 0x1E (startSprite Params.default [0xFF#8])))).wf ∧
    (setV 0 0x38 (setV 1 0x1E (startSprite Params.default [0xFF#8]))).gfx.length = 32 * 64 ∧
    56 = (0x38#8).toNat % 64 ∧ 30 = (0x1E#8).toNat % 32 ∧
    (setV 0 0x38 (setV 1 0x1E (startSprite Params.default [0xFF#8]))).spriteInMemory 2 ∧
    (setV 0 0x38 (setV 1 0x1E (startSprite Params.default [0xFF#8]))).spriteInside 56 30 2 ∧
    (startSprite { Params.default with drawEdge := .clip } [0xFF#8]).params.drawEdge = .clip := by
  refine ⟨by decide, List.length_replicate, by decide, by decide, fun r h => ?_, fun _ => ?_, rfl⟩
  · show 0x300 + r < 4096
    omega
  · show 56 + 7 < 64 ∧ 30 + 2 - 1 < 32
    omega

/-- The last column and row of the framebuffer, whose sprite wraps at both edges. -/
theorem witness_DrawWrapsOnTheTorus :
    (startSprite (small .wrap) [0xFF#8]).params.wf ∧
    (startSprite (small .wrap) [0xFF#8]).params.drawEdge = .wrap ∧
    8 ≤ (small .wrap).width ∧ (0x4#4).toNat ≤ (small .wrap).height ∧
    (startSprite (small .wrap) [0xFF#8]).gfx.length = 4 * 16 ∧
    15 = (0x0F#8).toNat % 16 ∧ 3 = (0x03#8).toNat % 4 ∧
    (startSprite (small .wrap) [0xFF#8]).spriteInMemory 4 := by
  refine ⟨by decide, rfl, by decide, by decide, List.length_replicate, by decide, by decide,
    fun r h => ?_⟩
  show 0x300 + r < 4096
  omega

/-- A framebuffer of 4 columns and 2 rows: eight columns and three rows overlap themselves. -/
theorem witness_DrawWrapsOntoSmallFramebuffers :
    (startSprite { small .wrap with width := 4, height := 2 } [0xF0#8]).params.wf ∧
    (startSprite { small .wrap with width := 4, height := 2 } [0xF0#8]).params.drawEdge = .wrap ∧
    (startSprite { small .wrap with width := 4, height := 2 } [0xF0#8]).gfx.length = 2 * 4 ∧
    3 = (0x07#8).toNat % 4 ∧ 1 = (0x03#8).toNat % 2 ∧
    (startSprite { small .wrap with width := 4, height := 2 } [0xF0#8]).spriteInMemory 3 := by
  refine ⟨by decide, rfl, List.length_replicate, by decide, by decide, fun r h => ?_⟩
  show 0x300 + r < 4096
  omega

/-- At the last two bytes of memory, inside under Fault, and anywhere under Wrap. -/
theorem witness_DrawCompletes :
    ({ start .new with i := 0xFFE#16 } : State).spriteInMemory 2 ∧
    ({ start .new with i := 0xFFE#16 } : State).spriteInside 0 0 2 ∧
    (startSprite (small .wrap) []).params.drawEdge ≠ .fault := by
  refine ⟨fun r h => ?_, fun _ => ?_, by decide⟩
  · show 0xFFE + r < 4096
    omega
  · show 0 + 7 < 64 ∧ 0 + 2 - 1 < 32
    omega

/-- One row too many at the end of memory; the first column and the first row past an edge. -/
theorem witness_DrawChecksMemoryBeforeTheEdge :
    ¬({ start .new with i := 0xFFE#16 } : State).spriteInMemory 3 ∧
    ((startSprite Params.default []).spriteInMemory 2 ∧
      (startSprite Params.default []).params.drawEdge = .fault ∧ 0 < 2) ∧
    Params.default.width ≤ 57 + 7 ∧ Params.default.height ≤ 31 + 2 - 1 := by
  refine ⟨fun h => ?_, ⟨fun r h => ?_, rfl, by decide⟩, by decide, by decide⟩
  · have h2 : 0xFFE + 2 < 4096 := h 2 (by decide)
    omega
  · show 0x300 + r < 4096
    omega

/-- Inside the framebuffer under Fault, with x = F and with x other than F. -/
theorem witness_DrawingTwiceRestoresTheFramebuffer :
    (startSprite (small .fault) [0xC3#8]).params.wf ∧
    (startSprite (small .fault) [0xC3#8]).gfx.length = 4 * 16 ∧
    0 = ((startSprite (small .fault) [0xC3#8]).getReg 0xF#4).toNat % 16 ∧
    0 = ((startSprite (small .fault) [0xC3#8]).getReg 0x1#4).toNat % 4 ∧
    (startSprite (small .fault) [0xC3#8]).spriteInMemory 1 ∧
    (startSprite (small .fault) [0xC3#8]).spriteInside 0 0 1 ∧
    see (exec (.drw 0xF#4 0x1#4 0x1#4) (startSprite (small .fault) [0xC3#8]))
      (fun t => ((t.getReg 0xF#4).toNat % 16, (t.getReg 0x1#4).toNat % 4)) = some (0, 0) ∧
    see (exec (.drw 0x0#4 0x1#4 0x1#4) (startSprite (small .fault) [0xC3#8]))
      (fun t => ((t.getReg 0x0#4).toNat % 16, (t.getReg 0x1#4).toNat % 4)) = some (0, 0) := by
  refine ⟨by decide, List.length_replicate, by decide, by decide, fun r h => ?_, fun _ => ?_,
    by decide, by decide⟩
  · show 0x300 + r < 4096
    omega
  · show 0 + 7 < 16 ∧ 0 + 1 - 1 < 4
    omega

/-- Past an edge under Clip and under Wrap, at the last column and row. -/
theorem witness_DrawingTwicePastAnEdge :
    ((startSprite (small .clip) [0xC3#8]).params.wf ∧
      (startSprite (small .clip) [0xC3#8]).params.drawEdge = .clip) ∧
    ((startSprite (small .wrap) [0xC3#8]).params.wf ∧
      (startSprite (small .wrap) [0xC3#8]).params.drawEdge = .wrap) ∧
    see (exec (.drw 0x0#4 0x1#4 0x2#4) (setV 0 15 (setV 1 3 (startSprite (small .wrap) [0xC3#8]))))
      (fun t => ((t.getReg 0x0#4).toNat % 16, (t.getReg 0x1#4).toNat % 4)) = some (15, 3) := by
  decide

/-- A byte supplied, then a cycle that draws nothing, then CXNN. -/
theorem witness_HostSuppliesTheNextRandomByte : ∃ t,
    (∀ m ∈ [Move.cycle, .host (.writeDt 0x3C#8)],
      m.isReset = false ∧ ∀ c, m ≠ .host (.supplyRandom c)) ∧
    applyMoves [.host (.supplyRandom 0xAB#8), .cycle, .host (.writeDt 0x3C#8)]
      (loaded .new 0x200#16 [0x60#8, 0x12#8, 0xC3#8, 0x0F#8]) = .next t ∧
    t.draws = (loaded .new 0x200#16 [0x60#8, 0x12#8, 0xC3#8, 0x0F#8]).draws ∧
    t.running ∧ t.fetches 0xC3#8 0x0F#8 ∧
    decode t.params t.compat (0xC3#8 ++ 0x0F#8) = .rnd 0x3#4 0x0F#8 := by
  refine ⟨_, ?_, rfl, rfl, ⟨by decide, rfl⟩, ⟨by decide, by decide⟩, by decide⟩
  intro m hm
  simp only [List.mem_cons, List.not_mem_nil, or_false] at hm
  rcases hm with rfl | rfl <;> exact ⟨rfl, nofun⟩

theorem witness_HostResetRestartsTheCore :
    ((start .new).fatal .stackUnderflow).params.wf ∧
    ((start .new).fatal .stackUnderflow).halted = true := ⟨by decide, rfl⟩

theorem witness_TimersChangeOnlyByTheirInstruction :
    (∃ t, step (setV 5 0x3C (loaded .new 0x200#16 [0xF5#8, 0x15#8])) = .next t ∧
      t.dt ≠ (loaded .new 0x200#16 [0xF5#8, 0x15#8]).dt) ∧
    ∃ t, step (setV 2 0x05 (loaded .new 0x200#16 [0xF2#8, 0x18#8])) = .next t ∧
      t.st ≠ (loaded .new 0x200#16 [0xF2#8, 0x18#8]).st :=
  ⟨⟨_, rfl, by decide⟩, ⟨_, rfl, by decide⟩⟩

/-- An instruction that does write the field, for each field that one may write. -/
theorem witness_OnlyTheNamedInstructionsWriteEachField :
    (∃ t, exec (.ldVxNn 0x0#4 0x12#8) (start .new) = .next t ∧ t.v ≠ (start .new).v) ∧
    (∃ t, exec (.seVxVy 0x1#4 0x1#4) (start .new) = .next t ∧ t.pc ≠ (start .new).pc) ∧
    (∃ t, exec (.ldI 0x123#12) (start .new) = .next t ∧ t.i ≠ (start .new).i) ∧
    (∃ t, exec (.call 0x400#12) (start .new) = .next t ∧ t.stack ≠ (start .new).stack) ∧
    (∃ t, exec (.ldDtVx 0x5#4) (setV 5 0x3C (start .new)) = .next t ∧ t.dt ≠ (start .new).dt) ∧
    (∃ t, exec (.ldStVx 0x5#4) (setV 5 0x3C (start .new)) = .next t ∧ t.st ≠ (start .new).st) ∧
    (∃ t, exec .cls (lit 1 0 (startSprite (small .fault) [])) = .next t ∧
      t.gfx ≠ (lit 1 0 (startSprite (small .fault) [])).gfx) ∧
    (∃ t, exec .ret (start .new) = .next t ∧ t.halted ≠ (start .new).halted ∧
      t.fault ≠ (start .new).fault ∧ t.result ≠ (start .new).result) ∧
    ∃ t, exec (.rnd 0x3#4 0x0F#8) { start .new with randPort := some 0xAB#8 } = .next t ∧
      t.randPort ≠ some 0xAB#8 ∧ t.draws ≠ (start .new).draws :=
  ⟨⟨_, rfl, by decide⟩, ⟨_, rfl, by decide⟩, ⟨_, rfl, by decide⟩, ⟨_, rfl, by decide⟩,
    ⟨_, rfl, by decide⟩, ⟨_, rfl, by decide⟩, ⟨_, rfl, by decide⟩,
    ⟨_, rfl, by decide, by decide, by decide⟩, ⟨_, rfl, by decide, by decide⟩⟩

/-- Another value in a register ADD does not name. -/
theorem witness_RegisterAccessFollowsTheTable :
    (∃ t, exec (.addVxVy 0x0#4 0x1#4) (start .new) = .next t) ∧
    0x2#4 ∉ regsWritten (start .new).params (.addVxVy 0x0#4 0x1#4) ∧
    (∀ r ∈ regsRead (start .new).params (start .new).compat (.addVxVy 0x0#4 0x1#4),
      ({ start .new with v := (setV 2 0x55 (start .new)).v } : State).getReg r =
        (start .new).getReg r) :=
  ⟨⟨_, rfl⟩, by decide, by decide⟩

theorem witness_ModeChangesOnlyShiftsAndOffsetJumps :
    (∀ x y, Instr.ret ≠ .shr x y ∧ Instr.ret ≠ .shl x y) ∧ (∀ nnn, Instr.ret ≠ .jpV0 nnn) ∧
    (∀ x nnn, Instr.ret ≠ .jpVx x nnn) ∧ ∃ t, exec .ret (start .new) = .next t := by
  refine ⟨fun _ _ => ⟨?_, ?_⟩, fun _ => ?_, fun _ _ => ?_, _, rfl⟩ <;> exact Instr.noConfusion

theorem witness_ExecutionIgnoresSoundTimerAndStatus :
    ∃ t, exec (.ldVxDt 0x5#4) (start .new) = .next t := ⟨_, rfl⟩

end Sys2Proof.Tests
end

/-! PROOFS. The mode and the execute stage (spec 00_scope.md R4): changing the mode commutes
with every instruction but the shifts and the jumps with offset, and with none of those four. -/

namespace Sys2Proof.Machine

/-- The same state in the mode `c`. -/
def State.withMode (s : State) (c : Compat) : State := { s with compat := c }

/-- The same outcome with its next state in the mode `c`. -/
def outcomeInMode (c : Compat) : StepOutcome → StepOutcome
  | .next t => .next (t.withMode c)
  | .fault r => .fault r
  | .refused r => .refused r

/-- A run of bytes depends on the memory and the parameters alone. -/
theorem State.memReadBytes_congr (s t : State) (hm : t.mem = s.mem) (hp : t.params = s.params)
    (a n : Nat) : t.memReadBytes a n = s.memReadBytes a n := by
  induction n generalizing a with
  | zero => rfl
  | succ n ih => rw [State.memReadBytes, State.memReadBytes, s.memRead_congr t hm hp, ih]

section
variable (s : State) (c : Compat)

/-! ### What an execution reads does not depend on the mode -/

@[simp] theorem State.withMode_stack : (s.withMode c).stack = s.stack := rfl
@[simp] theorem State.withMode_params : (s.withMode c).params = s.params := rfl

@[simp] theorem State.stackFull_withMode : (s.withMode c).stackFull = s.stackFull := rfl

@[simp] theorem State.originX_withMode (x : Nibble) :
    (s.withMode c).originX x = s.originX x := rfl

@[simp] theorem State.originY_withMode (y : Nibble) :
    (s.withMode c).originY y = s.originY y := rfl

@[simp] theorem State.spriteBytes_withMode (n : Nibble) :
    (s.withMode c).spriteBytes n = s.spriteBytes n :=
  s.memReadBytes_congr (s.withMode c) rfl rfl _ _

/-! ### The instructions with branches, none of which looks at the mode -/

theorem State.skipIf_withMode (b : Bool) :
    (s.withMode c).skipIf b = (s.skipIf b).withMode c := by
  cases b <;> rfl

theorem execRet_withMode : execRet (s.withMode c) = outcomeInMode c (execRet s) := by
  simp only [execRet, State.withMode_stack]
  cases s.stack <;> rfl

theorem execCall_withMode (nnn : Addr) :
    execCall nnn (s.withMode c) = outcomeInMode c (execCall nnn s) := by
  rw [execCall, execCall, State.stackFull_withMode]
  split <;> rfl

theorem execDrw_withMode (x y n : Nibble) :
    execDrw x y n (s.withMode c) = outcomeInMode c (execDrw x y n s) := by
  rw [execDrw, execDrw, State.spriteBytes_withMode, State.withMode_params,
    State.originX_withMode, State.originY_withMode]
  cases s.spriteBytes n with
  | none => rfl
  | some bytes =>
    dsimp only
    split <;> rfl

theorem execUnsettled8xy7_withMode (x y : Nibble) :
    execUnsettled8xy7 x y (s.withMode c) = outcomeInMode c (execUnsettled8xy7 x y s) := by
  simp only [execUnsettled8xy7, State.withMode_params]
  cases s.params.op8xy7 <;> rfl

theorem execUnsettledFx1e_withMode (x : Nibble) :
    execUnsettledFx1e x (s.withMode c) = outcomeInMode c (execUnsettledFx1e x s) := by
  simp only [execUnsettledFx1e, State.withMode_params]
  cases s.params.opFx1e <;> rfl

end

/-- Execution commutes with a change of the mode, for every instruction but the shifts and the
jumps with offset (R4). -/
theorem exec_withMode (i : Instr) (s : State) (c : Compat)
    (hshift : ∀ x y, i ≠ .shr x y ∧ i ≠ .shl x y) (hjpV0 : ∀ nnn, i ≠ .jpV0 nnn)
    (hjpVx : ∀ x nnn, i ≠ .jpVx x nnn) :
    exec i (s.withMode c) = outcomeInMode c (exec i s) := by
  cases i
  case shr x y => exact absurd rfl (hshift x y).1
  case shl x y => exact absurd rfl (hshift x y).2
  case jpV0 nnn => exact absurd rfl (hjpV0 nnn)
  case jpVx x nnn => exact absurd rfl (hjpVx x nnn)
  case ret => exact execRet_withMode s c
  case call nnn => exact execCall_withMode s c nnn
  case drw x y n => exact execDrw_withMode s c x y n
  case unsettled8xy7 x y => exact execUnsettled8xy7_withMode s c x y
  case unsettledFx1e x => exact execUnsettledFx1e_withMode s c x
  case seVxNn => exact congrArg Host.Outcome.next (s.skipIf_withMode c _)
  case sneVxNn => exact congrArg Host.Outcome.next (s.skipIf_withMode c _)
  case seVxVy => exact congrArg Host.Outcome.next (s.skipIf_withMode c _)
  case sneVxVy => exact congrArg Host.Outcome.next (s.skipIf_withMode c _)
  all_goals rfl

/-- The reset state with V0 = 00 and V1 = 81: the modes shift different bytes (R159). -/
def shiftState : State := State.reset.setReg 0x1#4 0x81#8

/-- Next states in the two modes that some view of the state tells apart are not the same but
for `compat`. -/
theorem ne_withMode_of_view {α : Type} (view : State → α) {t t' : State} {c : Compat}
    (h : view t' ≠ view (t.withMode c)) : t' ≠ t.withMode c :=
  fun e => h (congrArg view e)

/-- Settles O57. The first part is `exec_withMode`. The shifts differ in `V[x]`, since one mode
shifts V1 and the other V0; the jumps differ in `halted`, since one mode faults (R127). -/
theorem modeChangesOnlyShiftsAndOffsetJumps :
    Obligations.ModeChangesOnlyShiftsAndOffsetJumps := by
  refine ⟨fun i c s t hshift hjpV0 hjpVx h => ?_, ?_⟩
  · calc exec i (s.withMode c)
      _ = outcomeInMode c (exec i s) := exec_withMode i s c hshift hjpV0 hjpVx
      _ = .next (t.withMode c) := by rw [h, outcomeInMode]
  · rintro i (rfl | rfl | rfl | rfl)
    · exact ⟨shiftState, _, _, rfl, rfl, ne_withMode_of_view (·.getReg 0x0#4) (by decide)⟩
    · exact ⟨shiftState, _, _, rfl, rfl, ne_withMode_of_view (·.getReg 0x0#4) (by decide)⟩
    · exact ⟨State.reset, _, _, rfl, rfl, ne_withMode_of_view State.halted (by decide)⟩
    · exact ⟨State.reset, _, _, rfl, rfl, ne_withMode_of_view State.halted (by decide)⟩

end Sys2Proof.Machine

/-! PROOFS. What the execute stage does to each field of the state (spec 10_state.md): one
inversion of `exec`, a lemma per field derived from it, and the invariants of the step. -/

namespace Sys2Proof.Machine

/-- The instructions that may write `pc` at the execute stage (R24). -/
def mayWritePc (i : Instr) : Prop :=
  i = .ret ∨ (∃ nnn, i = .jp nnn ∨ i = .call nnn ∨ i = .jpV0 nnn) ∨
    (∃ x nnn, i = .jpVx x nnn) ∨ (∃ x nn, i = .seVxNn x nn ∨ i = .sneVxNn x nn) ∨
    ∃ x y, i = .seVxVy x y ∨ i = .sneVxVy x y

/-- The instructions that end in a warning (R106): the unknown words, and the two unsettled rows
where their parameter says Unknown. -/
def mayWarn (p : Params) (i : Instr) : Prop :=
  (∃ w, i = .unknown w) ∨ (∃ x y, i = .unsettled8xy7 x y ∧ p.op8xy7 = .unknown) ∨
    ∃ x, i = .unsettledFx1e x ∧ p.opFx1e = .unknown

/-- Everything the execute stage can make of a state `s`, by kind of instruction, with what
the invariants need to know of the values written. -/
inductive Effect (s : State) : Instr → State → Prop where
  | fatal {i : Instr} (code : FaultCode) (hc : code ≠ .none) (hi : mayRaise s.params i = true) :
      Effect s i (s.fatal code)
  | warn {i : Instr} (w : Word) (hi : mayWarn s.params i) : Effect s i (s.warn w)
  | regs {i : Instr} (v : Vector Byte 16)
      (hv : ∀ r ∉ regsWritten s.params i, ({ s with v := v } : State).getReg r = s.getReg r) :
      Effect s i { s with v := v }
  | rnd (x : Nibble) (nn : Byte) :
      Effect s (.rnd x nn) (s.afterDraw.setReg x (s.randomByte &&& nn))
  | skip {i : Instr} (c : Bool) (hi : mayWritePc i) : Effect s i (s.skipIf c)
  | jump {i : Instr} (target : Word) (ht : target.toNat ≤ 0x10FE) (hi : mayWritePc i) :
      Effect s i (s.setPc target)
  | ret (a : Word) (rest : List Word) (hs : s.stack = a :: rest) :
      Effect s .ret { s with pc := a, stack := rest }
  | call (nnn : Addr) (hs : s.stackFull = false) :
      Effect s (.call nnn) ((s.push s.pc).setPc (addrOperand nnn))
  | ldI (nnn : Addr) : Effect s (.ldI nnn) (s.setI (addrOperand nnn))
  | addI (x : Nibble) (a : Word) (hp : s.params.opFx1e = .addI) :
      Effect s (.unsettledFx1e x) (s.setI a)
  | ldDt (x : Nibble) : Effect s (.ldDtVx x) (s.setDt (s.getReg x))
  | ldSt (x : Nibble) : Effect s (.ldStVx x) (s.setSt (s.getReg x))
  | cls : Effect s .cls { s with gfx := gfxClear s.params }
  | drw (x y n : Nibble) (gfx : List Bool) (flag : Bool) (hg : gfx.length = s.gfx.length) :
      Effect s (.drw x y n) ({ s with gfx := gfx }.setFlag flag)

section
variable {s t : State} {i : Instr}

/-! ### The inversion of `exec` -/

/-- A constant address is below 2^12 (R73). -/
theorem addrOperand_toNat_le (nnn : Addr) : (addrOperand nnn).toNat ≤ 0x0FFF := by
  have := nnn.isLt
  simp only [addrOperand, BitVec.toNat_setWidth]
  omega

/-- A register write is the effect of an instruction whose row writes that register. -/
theorem Effect.setReg {x : Nibble} (b : Byte) (hi : regsWritten s.params i = [x]) :
    Effect s i (s.setReg x b) :=
  .regs _ fun r hr => s.getReg_setReg_other x r b (by simpa [hi] using hr)

/-- A result with its flag is the effect of an instruction whose row writes both. -/
theorem Effect.setResultAndFlag {x : Nibble} (b : Byte) (flag : Bool)
    (hi : regsWritten s.params i = [x, flagReg]) : Effect s i (s.setResultAndFlag x b flag) := by
  refine .regs _ fun r hr => ?_
  obtain ⟨hx, hf⟩ : r ≠ x ∧ r ≠ flagReg := by simpa [hi] using hr
  exact s.getReg_setResultAndFlag_other x r b flag hx hf

/-- The jumps with offset reach at most 0x0FFF + 0xFF = 0x10FE (R128, R129). -/
theorem Effect.jumpWithOffset {m : Compat} {x : Nibble} {nnn : Addr} (hw : mayWritePc i)
    (hr : mayRaise s.params i = true) (h : jumpWithOffset m x nnn s = .next t) :
    Effect s i t := by
  rcases jumpWithOffset_cases m x nnn s t h with ⟨-, rfl⟩ | ⟨-, rfl⟩
  · refine .jump _ ?_ hw
    have hn := nnn.isLt
    have hb := (s.getReg x).isLt
    rw [s.offsetTarget_toNat]
    omega
  · exact .fatal _ (by decide) hr

theorem Effect.execRet (h : execRet s = .next t) : Effect s .ret t := by
  unfold Machine.execRet at h
  split at h <;> cases h
  case h_1 => exact .fatal _ (by decide) rfl
  case h_2 a rest hs => exact .ret a rest hs

theorem Effect.execCall {nnn : Addr} (h : execCall nnn s = .next t) : Effect s (.call nnn) t := by
  unfold Machine.execCall at h
  split at h <;> cases h
  case isTrue => exact .fatal _ (by decide) rfl
  case isFalse hs => exact .call nnn (by simpa using hs)

theorem Effect.execDrw {x y n : Nibble} (h : execDrw x y n s = .next t) :
    Effect s (.drw x y n) t := by
  rcases execDrw_cases x y n s t h with ⟨-, rfl⟩ | ⟨-, rfl⟩ | ⟨bytes, -, -, rfl⟩
  · exact .fatal _ (by decide) rfl
  · exact .fatal _ (by decide) rfl
  · exact .drw x y n _ _ (drawRows_length ..)

theorem Effect.execUnsettled8xy7 {x y : Nibble} (h : execUnsettled8xy7 x y s = .next t) :
    Effect s (.unsettled8xy7 x y) t := by
  unfold Machine.execUnsettled8xy7 at h
  split at h <;> cases h
  case h_1 hp => exact .fatal _ (by decide) (by simp [mayRaise, hp])
  case h_2 hp => exact .warn _ (.inr (.inl ⟨x, y, rfl, hp⟩))
  case h_3 hp => exact .setResultAndFlag _ _ (by simp [regsWritten, hp, flagReg])

theorem Effect.execUnsettledFx1e {x : Nibble} (h : execUnsettledFx1e x s = .next t) :
    Effect s (.unsettledFx1e x) t := by
  unfold Machine.execUnsettledFx1e at h
  split at h <;> cases h
  case h_1 hp => exact .fatal _ (by decide) (by simp [mayRaise, hp])
  case h_2 hp => exact .warn _ (.inr (.inr ⟨x, rfl, hp⟩))
  case h_3 hp => exact .addI x _ hp

/-- Every next state of the execute stage is one of the effects of its instruction. -/
theorem exec_effect (h : exec i s = .next t) : Effect s i t := by
  cases i
  case ret => exact .execRet h
  case call nnn => exact .execCall h
  case jpV0 nnn => exact .jumpWithOffset (by simp [mayWritePc]) rfl h
  case jpVx x nnn => exact .jumpWithOffset (by simp [mayWritePc]) rfl h
  case drw x y n => exact .execDrw h
  case unsettled8xy7 x y => exact .execUnsettled8xy7 h
  case unsettledFx1e x => exact .execUnsettledFx1e h
  all_goals cases h
  case cls => exact .cls
  case jp nnn =>
    exact .jump _ ((addrOperand_toNat_le nnn).trans (by decide)) (by simp [mayWritePc])
  case ldI nnn => exact .ldI nnn
  case rnd x nn => exact .rnd x nn
  case ldDtVx x => exact .ldDt x
  case ldStVx x => exact .ldSt x
  case unsettledF0N0 mid => exact .fatal _ (by decide) rfl
  case unsettledF0Ne mid => exact .fatal _ (by decide) rfl
  case unknown w => exact .warn w (.inl ⟨w, rfl⟩)
  case seVxNn | sneVxNn | seVxVy | sneVxVy => exact .skip _ (by simp [mayWritePc])
  case addVxVy | subVxVy | shr | shl => exact .setResultAndFlag _ _ rfl
  case ldVxNn | addVxNn | ldVxVy | orVxVy | andVxVy | xorVxVy | ldVxDt => exact .setReg _ rfl

/-! ### What an execution does to each field -/

/-- The mode, the parameters and the memory are never written (R28, R53). -/
theorem exec_keeps (h : exec i s = .next t) :
    t.compat = s.compat ∧ t.params = s.params ∧ t.mem = s.mem := by
  cases exec_effect h
  case skip c _ => exact ⟨s.skipIf_compat c, s.skipIf_params c, s.skipIf_mem c⟩
  all_goals exact ⟨rfl, rfl, rfl⟩

/-- A register the row does not write keeps its value (R22). -/
theorem exec_getReg (h : exec i s = .next t) (r : Nibble) (hr : r ∉ regsWritten s.params i) :
    t.getReg r = s.getReg r := by
  cases exec_effect h
  case regs v hv => exact hv r hr
  case rnd x nn => exact s.afterDraw.getReg_setReg_other x r _ (by simpa [regsWritten] using hr)
  case drw x y n gfx flag hg =>
    exact State.getReg_setFlag_other _ r flag (by simpa [regsWritten, flagReg] using hr)
  case skip c _ => exact s.getReg_congr r _ (s.skipIf_v c)
  all_goals rfl

/-- Only an instruction whose row writes a register changes one (R22). -/
theorem exec_v (h : exec i s = .next t) (hne : t.v ≠ s.v) : regsWritten s.params i ≠ [] :=
  fun hnil => hne (s.v_eq_of_getReg_eq t fun r => exec_getReg h r (by simp [hnil]))

/-- Who writes `pc`, and with what (R24, R25). -/
theorem exec_pc (h : exec i s = .next t) :
    t.pc = s.pc ∨
      mayWritePc i ∧ (t.pc = s.pc + 2 ∨ t.pc ∈ s.stack ∨ t.pc.toNat ≤ 0x10FE) := by
  cases exec_effect h
  case skip c hi =>
    cases c
    · exact .inl rfl
    · exact .inr ⟨hi, .inl rfl⟩
  case jump target ht hi => exact .inr ⟨hi, .inr (.inr ht)⟩
  case ret a rest hs => exact .inr ⟨.inl rfl, .inr (.inl (by simp [hs]))⟩
  case call nnn _ =>
    exact .inr ⟨.inr (.inl ⟨nnn, .inr (.inl rfl)⟩),
      .inr (.inr ((addrOperand_toNat_le nnn).trans (by decide)))⟩
  all_goals exact .inl rfl

/-- Who writes `i`, and with what (R31). -/
theorem exec_i (h : exec i s = .next t) :
    t.i = s.i ∨ (∃ nnn, i = .ldI nnn ∧ t.i = addrOperand nnn) ∨
      ∃ x, i = .unsettledFx1e x ∧ s.params.opFx1e = .addI := by
  cases exec_effect h
  case ldI nnn => exact .inr (.inl ⟨nnn, rfl, rfl⟩)
  case addI x a hp => exact .inr (.inr ⟨x, rfl, hp⟩)
  case skip c _ => exact .inl (s.skipIf_i c)
  all_goals exact .inl rfl

/-- Who writes the stack, and how: a pop by RET, or a push by CALL below the limit (R32). -/
theorem exec_stack (h : exec i s = .next t) :
    t.stack = s.stack ∨ (i = .ret ∧ ∃ a, s.stack = a :: t.stack) ∨
      ∃ nnn, i = .call nnn ∧ t.stack = s.pc :: s.stack ∧ s.stackFull = false := by
  cases exec_effect h
  case ret a rest hs => exact .inr (.inl ⟨rfl, a, hs⟩)
  case call nnn hs => exact .inr (.inr ⟨nnn, rfl, rfl, hs⟩)
  case skip c _ => exact .inl (s.skipIf_stack c)
  all_goals exact .inl rfl

/-- Who writes `dt`, and with what (R33, R211). -/
theorem exec_dt (h : exec i s = .next t) :
    t.dt = s.dt ∨ ∃ x, i = .ldDtVx x ∧ t.dt = s.getReg x := by
  cases exec_effect h
  case ldDt x => exact .inr ⟨x, rfl, rfl⟩
  case skip c _ => exact .inl (s.skipIf_dt c)
  all_goals exact .inl rfl

/-- Who writes `st`, and with what (R33, R212). -/
theorem exec_st (h : exec i s = .next t) :
    t.st = s.st ∨ ∃ x, i = .ldStVx x ∧ t.st = s.getReg x := by
  cases exec_effect h
  case ldSt x => exact .inr ⟨x, rfl, rfl⟩
  case skip c _ => exact .inl (s.skipIf_st c)
  all_goals exact .inl rfl

/-- Who writes the framebuffer, and what size it has after it (R34). -/
theorem exec_gfx (h : exec i s = .next t) :
    t.gfx = s.gfx ∨ (i = .cls ∧ t.gfx = gfxClear s.params) ∨
      (∃ x y n, i = .drw x y n) ∧ t.gfx.length = s.gfx.length := by
  cases exec_effect h
  case cls => exact .inr (.inl ⟨rfl, rfl⟩)
  case drw x y n gfx flag hg => exact .inr (.inr ⟨⟨x, y, n, rfl⟩, hg⟩)
  case skip c _ => exact .inl (s.skipIf_gfx c)
  all_goals exact .inl rfl

/-- Who writes the error status, and that a fault code comes with the halt (R29, R221). -/
theorem exec_status (h : exec i s = .next t) :
    (t.halted = s.halted ∧ t.fault = s.fault) ∨
      mayRaise s.params i = true ∧ t.halted = true ∧ t.fault ≠ .none := by
  cases exec_effect h
  case fatal code hc hi => exact .inr ⟨hi, rfl, hc⟩
  case skip c _ => exact .inl ⟨s.skipIf_halted c, s.skipIf_fault c⟩
  all_goals exact .inl ⟨rfl, rfl⟩

/-- Who writes `result` at the execute stage (log entry 3). -/
theorem exec_result (h : exec i s = .next t) :
    t.result = s.result ∨ mayRaise s.params i = true ∨ mayWarn s.params i := by
  cases exec_effect h
  case fatal code _ hi => exact .inr (.inl hi)
  case warn w hi => exact .inr (.inr hi)
  case skip c _ => exact .inl (s.skipIf_result c)
  all_goals exact .inl rfl

/-- Who takes the random byte (log entry 4). -/
theorem exec_random (h : exec i s = .next t) :
    (t.randPort = s.randPort ∧ t.draws = s.draws) ∨ ∃ x nn, i = .rnd x nn := by
  cases exec_effect h
  case rnd x nn => exact .inr ⟨x, nn, rfl⟩
  case skip c _ => exact .inl ⟨s.skipIf_randPort c, s.skipIf_draws c⟩
  all_goals exact .inl ⟨rfl, rfl⟩

end

/-- Settles O55, field by field from the `exec_` lemmas. -/
theorem onlyTheNamedInstructionsWriteEachField :
    Obligations.OnlyTheNamedInstructionsWriteEachField := by
  intro i s t h
  obtain ⟨hcompat, hparams, hmem⟩ := exec_keeps h
  refine ⟨exec_v h, fun hne => ?_, fun hne => ?_, fun hne => ?_, fun hne => ?_, fun hne => ?_,
    fun hne => ?_, fun hne => ?_, (exec_result h).resolve_left, fun hne => ?_,
    hcompat, hparams, hmem, s.memRead_congr t hmem hparams⟩
  · exact ((exec_pc h).resolve_left hne).1
  · exact ((exec_i h).resolve_left hne).imp_left fun ⟨nnn, hi, _⟩ => ⟨nnn, hi⟩
  · exact ((exec_stack h).resolve_left hne).imp And.left fun ⟨nnn, hi, _⟩ => ⟨nnn, hi⟩
  · exact ((exec_dt h).resolve_left hne).imp fun _ => And.left
  · exact ((exec_st h).resolve_left hne).imp fun _ => And.left
  · exact ((exec_gfx h).resolve_left hne).imp And.left And.left
  · exact ((exec_status h).resolve_left fun ⟨hh, hf⟩ => hne.elim (· hh) (· hf)).1
  · exact (exec_random h).resolve_left fun ⟨hp, hd⟩ => hne.elim (· hp) (· hd)

/-! ### The invariant of the step -/

section
variable {s t : State} {i : Instr}

/-- Return addresses keep a bound that `pc` meets: CALL pushes `pc` (R131). -/
theorem exec_returns_le {m : Nat} (hpc : s.pc.toNat ≤ m) (hs : ∀ a ∈ s.stack, a.toNat ≤ m)
    (h : exec i s = .next t) : ∀ a ∈ t.stack, a.toNat ≤ m := by
  intro a ha
  rcases exec_stack h with heq | ⟨-, b, hpop⟩ | ⟨nnn, -, hpush, -⟩
  · exact hs a (heq ▸ ha)
  · exact hs a (hpop ▸ List.mem_cons_of_mem b ha)
  · rw [hpush] at ha
    rcases List.mem_cons.1 ha with rfl | ha
    · exact hpc
    · exact hs a ha

/-- The stack keeps its limit: CALL pushes only below it (R132). -/
theorem exec_stack_limit {k : Nat} (hk : s.params.stackLimit = some k) (hs : s.stack.length ≤ k)
    (h : exec i s = .next t) : t.stack.length ≤ k := by
  rcases exec_stack h with heq | ⟨-, b, hpop⟩ | ⟨nnn, -, hpush, hfull⟩
  · rwa [heq]
  · rw [hpop, List.length_cons] at hs
    omega
  · have hne : s.stack.length ≠ k := fun he => by
      simp [s.stackFull_eq_true.2 ⟨k, hk, he⟩] at hfull
    rw [hpush, List.length_cons]
    omega

/-- A framebuffer of the right size keeps it (R34). -/
theorem exec_gfx_length (hs : s.gfx.length = s.params.height * s.params.width)
    (h : exec i s = .next t) : t.gfx.length = s.params.height * s.params.width := by
  rcases exec_gfx h with heq | ⟨-, hcls⟩ | ⟨-, hlen⟩
  · rwa [heq]
  · rw [hcls, gfxClear_length]
  · rwa [hlen]

theorem State.Inv.advance (hs : s.Inv) : s.advance.Inv := { hs with }

theorem State.Inv.idle (hs : s.Inv) : s.idle.Inv := { hs with }

theorem State.Inv.fatal {code : FaultCode} (hs : s.Inv) (hc : code ≠ .none) :
    (s.fatal code).Inv :=
  { hs with fault := ⟨fun _ => hc, fun _ => rfl⟩ }

/-- An execution keeps the invariant when the post-fetch `pc`, which CALL pushes, does not
exceed `P_MEM_SIZE`. -/
theorem State.Inv.exec (hs : s.Inv) (hpc : s.pc.toNat ≤ s.params.memSize)
    (h : exec i s = .next t) : t.Inv := by
  obtain ⟨-, hparams, hmem⟩ := exec_keeps h
  refine ⟨hparams ▸ hs.params, hparams ▸ exec_gfx_length hs.gfx h, hmem ▸ hs.mem,
    hparams ▸ hmem ▸ hs.memRange, ?_, fun k hk => ?_, ?_⟩
  · rcases exec_status h with ⟨hhalt, hfault⟩ | ⟨-, hhalt, hfault⟩
    · rw [hhalt, hfault]
      exact hs.fault
    · exact ⟨fun _ => hfault, fun _ => hhalt⟩
  · rw [hparams] at hk
    exact exec_stack_limit hk (hs.stack k hk) h
  · rw [hparams]
    exact exec_returns_le hpc hs.returns h

end

/-- Settles O3: a step idles, raises the fetch's error, or executes from the advanced state,
whose `pc` is at most `P_MEM_SIZE` since the fetch succeeded. -/
theorem everyStepKeepsTheInvariant : Obligations.EveryStepKeepsTheInvariant := by
  intro s t hs h
  rcases step_cases s t h with ⟨-, rfl⟩ | ⟨-, -, rfl⟩ | ⟨-, hfetch, hexec⟩
  · exact hs.idle
  · exact hs.fatal (by decide)
  · exact hs.advance.exec (s.advance_pc_le hfetch) hexec

/-- Settles O33. The bound 0x10FE is that of the jumps with offset (R25); the others stay within
`P_MEM_SIZE + 2`. -/
theorem pcNeverPasses10FE : Obligations.PcNeverPasses10FE := by
  intro s t hmem hpc hret h
  rcases step_cases s t h with ⟨-, rfl⟩ | ⟨-, -, rfl⟩ | ⟨-, hfetch, hexec⟩
  · exact ⟨hpc, hret⟩
  · exact ⟨hpc, hret⟩
  have hadv : s.advance.pc.toNat ≤ s.params.memSize := s.advance_pc_le hfetch
  have hparams : t.params = s.params := (exec_keeps hexec).2.1
  refine ⟨?_, hparams ▸ exec_returns_le hadv hret hexec⟩
  rcases exec_pc hexec with heq | ⟨-, hskip | hpop | hjump⟩
  · rw [heq]
    omega
  · have hsum : t.pc.toNat = (s.advance.pc.toNat + 2) % 65536 := by
      rw [hskip]
      exact BitVec.toNat_add s.advance.pc 2
    omega
  · have := hret _ hpop
    omega
  · exact hjump

/-- A field that neither the advance nor the fetch's error writes changes in a step only by the
execution of the fetched word. -/
theorem exec_of_step_ne {α : Type} (view : State → α) {s t : State} (h : step s = .next t)
    (hidle : view s.idle = view s) (hfatal : view (s.fatal .fetchOutOfBounds) = view s)
    (hne : view t ≠ view s) :
    ∃ hi lo, s.fetches hi lo ∧
      exec (decode s.params s.compat (hi ++ lo)) s.advance = .next t := by
  rcases step_cases s t h with ⟨-, rfl⟩ | ⟨-, -, rfl⟩ | ⟨-, hfetch, hexec⟩
  · exact absurd hidle hne
  · exact absurd hfatal hne
  · exact ⟨_, _, s.fetches_read hfetch, hexec⟩

/-- Settles O42: without the option only LD I changes `i`, and its operand has 12 bits. -/
theorem indexStaysIn12Bits : Obligations.IndexStaysIn12Bits := by
  intro s t hp hi h
  by_cases hne : t.i = s.i
  · rwa [hne]
  obtain ⟨_, _, -, hexec⟩ := exec_of_step_ne State.i h rfl rfl hne
  rcases exec_i hexec with heq | ⟨nnn, -, hval⟩ | ⟨x, -, haddI⟩
  · exact absurd heq hne
  · exact hval ▸ addrOperand_toNat_le nnn
  · exact absurd haddI hp

/-- Settles O53. -/
theorem timersChangeOnlyByTheirInstruction : Obligations.TimersChangeOnlyByTheirInstruction := by
  intro s t h
  refine ⟨fun hne => ?_, fun hne => ?_⟩
  · obtain ⟨hi, lo, hf, hexec⟩ := exec_of_step_ne State.dt h rfl rfl hne
    obtain ⟨x, hdec, hval⟩ := (exec_dt hexec).resolve_left hne
    exact ⟨hi, lo, x, hf, hdec, hval⟩
  · obtain ⟨hi, lo, hf, hexec⟩ := exec_of_step_ne State.st h rfl rfl hne
    obtain ⟨x, hdec, hval⟩ := (exec_st hexec).resolve_left hne
    exact ⟨hi, lo, x, hf, hdec, hval⟩

/-! ### The flags -/

/-- A flag write leaves 0 or 1 in VF (R27). -/
theorem State.setFlag_zero_or_one (s : State) (f : Bool) :
    (s.setFlag f).getReg flagReg = 0 ∨ (s.setFlag f).getReg flagReg = 1 := by
  rw [s.getReg_setFlag_flag]
  exact flagByte_zero_or_one f

/-- Settles O43. The flag is the last write of each of the five (R150, R193); a draw that does
not complete halts the core. -/
theorem flagsAreZeroOrOne : Obligations.FlagsAreZeroOrOne := by
  rintro s t i x y n (rfl | rfl | rfl | rfl | rfl) h hrun
  case inr.inr.inr.inr =>
    rcases execDrw_cases x y n s t h with ⟨-, rfl⟩ | ⟨-, rfl⟩ | ⟨bytes, -, -, rfl⟩
    · cases hrun
    · cases hrun
    · exact State.setFlag_zero_or_one _ _
  all_goals
    cases h
    exact State.setFlag_zero_or_one (s.setReg x _) _

/-! ### Reset -/

/-- Settles O1. -/
theorem resetLeavesTheResetTable : Obligations.ResetLeavesTheResetTable := by
  refine ⟨fun p image c d => ⟨fun r => ?_, rfl, rfl, rfl, rfl, rfl, gfxClear_length p,
    gfxPixel_gfxClear p, fun _ => rfl, rfl, rfl, rfl⟩, rfl⟩
  simp [State.getReg, State.resetWith]

/-- Settles O2. -/
theorem resetStateMeetsTheInvariant : Obligations.ResetStateMeetsTheInvariant := by
  have hreset (p : Params) (image : Memory) (c : Compat) (d : Nat) (hp : p.wf)
      (hm : Memory.wf image) (hr : ∀ cell ∈ image, cell.1 < p.memSize) :
      (State.resetWith p image c d).Inv :=
    { params := hp
      gfx := gfxClear_length p
      mem := hm
      memRange := hr
      fault := by simp [State.resetWith]
      stack := fun k _ => Nat.zero_le k
      returns := nofun }
  exact ⟨hreset, hreset _ _ _ _ (by decide) State.reset_mem_wf nofun⟩

end Sys2Proof.Machine

/-! PROOFS. What an execution depends on (spec 10_state.md R22, R36): two states that differ in
the sound timer, the error status, `result` and registers the instruction does not read get the
same writes. -/

namespace Sys2Proof.Machine

/-- `s` with the registers, the sound timer, the error status and the result of `o`. -/
def State.withUnreadOf (s o : State) : State :=
  { s with v := o.v, st := o.st, halted := o.halted, fault := o.fault, result := o.result }

/-- A field that held `a` in one state and `a'` in another, and now holds `b` and `b'`, got the
same value in both or was left as it was by both. -/
def SameWrite {α : Type} (a a' b b' : α) : Prop := b' = b ∨ (b = a ∧ b' = a')

/-- `t` and `t'` come from `s` and `s.withUnreadOf o` by the same writes. -/
structure SameWrites (s o t t' : State) : Prop where
  frame : t' = t.withUnreadOf t'
  regs : ∀ r, SameWrite (s.getReg r) (o.getReg r) (t.getReg r) (t'.getReg r)
  st : SameWrite s.st o.st t.st t'.st
  halted : SameWrite s.halted o.halted t.halted t'.halted
  fault : SameWrite s.fault o.fault t.fault t'.fault
  result : SameWrite s.result o.result t.result t'.result

/-- Both outcomes are next states, and the relation holds of them. -/
def bothNext (R : State → State → Prop) : StepOutcome → StepOutcome → Prop
  | .next t, .next t' => R t t'
  | _, _ => False

/-- The second of two related outcomes is a next state related to the first's. -/
theorem exists_of_bothNext {R : State → State → Prop} {o o' : StepOutcome} {t : State}
    (h : bothNext R o o') (ho : o = .next t) : ∃ t', o' = .next t' ∧ R t t' := by
  subst ho
  cases o' with
  | next t' => exact ⟨t', rfl, h⟩
  | fault _ => exact h.elim
  | refused _ => exact h.elim

/-- A field that held the same value in both states holds the same value after the same write. -/
theorem SameWrite.eq {α : Type} {a a' b b' : α} (h : SameWrite a a' b b') (ha : a' = a) :
    b' = b := by
  rcases h with hb | ⟨hb, hb'⟩
  · exact hb
  · rw [hb, hb', ha]

theorem SameWrite.written {α : Type} {a a' b : α} : SameWrite a a' b b := .inl rfl

theorem SameWrite.kept {α : Type} {a a' : α} : SameWrite a a' a a' := .inr ⟨rfl, rfl⟩

namespace SameWrites
variable {s o t t' : State}

/-- A write of fields that both states share keeps all the others. -/
theorem shared (hv : t.v = s.v) (hst : t.st = s.st) (hh : t.halted = s.halted)
    (hf : t.fault = s.fault) (hr : t.result = s.result) :
    SameWrites s o t (t.withUnreadOf o) where
  frame := rfl
  regs r := .inr ⟨s.getReg_congr r t hv, rfl⟩
  st := .inr ⟨hst, rfl⟩
  halted := .inr ⟨hh, rfl⟩
  fault := .inr ⟨hf, rfl⟩
  result := .inr ⟨hr, rfl⟩

theorem untouched : SameWrites s o s (s.withUnreadOf o) := .shared rfl rfl rfl rfl rfl

/-- A further write of one byte to one register of both. -/
theorem setReg (h : SameWrites s o t t') (x : Nibble) (b : Byte) :
    SameWrites s o (t.setReg x b) (t'.setReg x b) where
  frame := by
    rw [h.frame]
    rfl
  regs r := by
    rw [t.getReg_setReg, t'.getReg_setReg]
    split
    · exact .written
    · exact h.regs r
  st := h.st
  halted := h.halted
  fault := h.fault
  result := h.result

theorem setResultAndFlag (h : SameWrites s o t t') (x : Nibble) (b : Byte) (f : Bool) :
    SameWrites s o (t.setResultAndFlag x b f) (t'.setResultAndFlag x b f) :=
  (h.setReg x b).setReg flagReg (flagByte f)

theorem fatal (code : FaultCode) :
    SameWrites s o (s.fatal code) ((s.withUnreadOf o).fatal code) where
  frame := rfl
  regs _ := .kept
  st := .kept
  halted := .written
  fault := .written
  result := .written

theorem warn (w : Word) : SameWrites s o (s.warn w) ((s.withUnreadOf o).warn w) where
  frame := rfl
  regs _ := .kept
  st := .kept
  halted := .kept
  fault := .kept
  result := .written

theorem setSt (b : Byte) : SameWrites s o (s.setSt b) ((s.withUnreadOf o).setSt b) where
  frame := rfl
  regs _ := .kept
  st := .written
  halted := .kept
  fault := .kept
  result := .kept

theorem setGfx (g : List Bool) :
    SameWrites s o { s with gfx := g } { s.withUnreadOf o with gfx := g } :=
  .shared rfl rfl rfl rfl rfl

theorem skipIf (c : Bool) : SameWrites s o (s.skipIf c) ((s.withUnreadOf o).skipIf c) := by
  cases c <;> exact .shared rfl rfl rfl rfl rfl

end SameWrites

section
variable (s o : State)

@[simp] theorem State.withUnreadOf_stack : (s.withUnreadOf o).stack = s.stack := rfl
@[simp] theorem State.withUnreadOf_gfx : (s.withUnreadOf o).gfx = s.gfx := rfl
@[simp] theorem State.withUnreadOf_compat : (s.withUnreadOf o).compat = s.compat := rfl
@[simp] theorem State.withUnreadOf_params : (s.withUnreadOf o).params = s.params := rfl
@[simp] theorem State.stackFull_withUnreadOf : (s.withUnreadOf o).stackFull = s.stackFull := rfl

@[simp] theorem State.spriteBytes_withUnreadOf (n : Nibble) :
    (s.withUnreadOf o).spriteBytes n = s.spriteBytes n :=
  s.memReadBytes_congr (s.withUnreadOf o) rfl rfl _ _

/-! ### The instructions with branches -/

theorem execRet_sameWrites :
    bothNext (SameWrites s o) (execRet s) (execRet (s.withUnreadOf o)) := by
  rw [execRet, execRet, State.withUnreadOf_stack]
  cases s.stack with
  | nil => exact .fatal _
  | cons a rest => exact .shared rfl rfl rfl rfl rfl

theorem execCall_sameWrites (nnn : Addr) :
    bothNext (SameWrites s o) (execCall nnn s) (execCall nnn (s.withUnreadOf o)) := by
  rw [execCall, execCall, State.stackFull_withUnreadOf]
  split
  · exact .fatal _
  · exact .shared rfl rfl rfl rfl rfl

theorem jumpWithOffset_sameWrites (m : Compat) (x : Nibble) (nnn : Addr)
    (hx : (s.withUnreadOf o).getReg x = s.getReg x) :
    bothNext (SameWrites s o) (jumpWithOffset m x nnn s)
      (jumpWithOffset m x nnn (s.withUnreadOf o)) := by
  have htarget : (s.withUnreadOf o).offsetTarget x nnn = s.offsetTarget x nnn := by
    simp [State.offsetTarget, hx]
  rw [jumpWithOffset, jumpWithOffset, State.withUnreadOf_compat, htarget]
  split
  · exact .shared rfl rfl rfl rfl rfl
  · exact .fatal _

theorem execDrw_sameWrites (x y n : Nibble) (hx : (s.withUnreadOf o).getReg x = s.getReg x)
    (hy : (s.withUnreadOf o).getReg y = s.getReg y) :
    bothNext (SameWrites s o) (execDrw x y n s) (execDrw x y n (s.withUnreadOf o)) := by
  have hox : (s.withUnreadOf o).originX x = s.originX x := by simp [State.originX, hx]
  have hoy : (s.withUnreadOf o).originY y = s.originY y := by simp [State.originY, hy]
  rw [execDrw, execDrw, State.spriteBytes_withUnreadOf, State.withUnreadOf_params, hox, hoy,
    State.withUnreadOf_gfx]
  cases s.spriteBytes n with
  | none => exact .fatal _
  | some bytes =>
    dsimp only
    split
    · exact .fatal _
    · exact (SameWrites.setGfx _).setReg flagReg _

/-! ### The instructions without branches -/

/-- An update by a value that is the same in both states. -/
theorem update_sameWrites {α : Type} (update : State → α → State) {a a' : α} (ha : a' = a)
    (h : ∀ c, SameWrites s o (update s c) (update (s.withUnreadOf o) c)) :
    bothNext (SameWrites s o) (.next (update s a)) (.next (update (s.withUnreadOf o) a')) :=
  ha ▸ h a'

theorem setReg_sameWrites (x : Nibble) {b b' : Byte} (hb : b' = b) :
    bothNext (SameWrites s o) (.next (s.setReg x b)) (.next ((s.withUnreadOf o).setReg x b')) :=
  update_sameWrites s o (·.setReg x ·) hb (SameWrites.untouched.setReg x)

theorem setResultAndFlag_sameWrites (x : Nibble) {b b' : Byte} {f f' : Bool} (hb : b' = b)
    (hf : f' = f) :
    bothNext (SameWrites s o) (.next (s.setResultAndFlag x b f))
      (.next ((s.withUnreadOf o).setResultAndFlag x b' f')) :=
  hb ▸ hf ▸ SameWrites.untouched.setResultAndFlag x b' f'

theorem subtractInto_sameWrites (x : Nibble) {a a' b b' : Byte} (ha : a' = a) (hb : b' = b) :
    bothNext (SameWrites s o) (subtractInto x a b s) (subtractInto x a' b' (s.withUnreadOf o)) :=
  setResultAndFlag_sameWrites s o x (by rw [ha, hb]) (by rw [ha, hb])

/-- The shifts take their source from the one register their row reads in the mode (R159). -/
theorem State.shiftSource_withUnreadOf (x y : Nibble)
    (hread : ∀ r ∈ regsRead s.params s.compat (.shr x y),
      (s.withUnreadOf o).getReg r = s.getReg r) :
    (s.withUnreadOf o).shiftSource x y = s.shiftSource x y := by
  cases hc : s.compat <;> simpa [State.shiftSource, regsRead, hc] using hread

/-! ### The unsettled rows -/

theorem execUnsettled8xy7_sameWrites (x y : Nibble)
    (hread : ∀ r ∈ regsRead s.params s.compat (.unsettled8xy7 x y),
      (s.withUnreadOf o).getReg r = s.getReg r) :
    bothNext (SameWrites s o) (execUnsettled8xy7 x y s)
      (execUnsettled8xy7 x y (s.withUnreadOf o)) := by
  rw [execUnsettled8xy7, execUnsettled8xy7, State.withUnreadOf_params]
  cases hp : s.params.op8xy7 with
  | unsettled => exact .fatal _
  | unknown => exact .warn _
  | subN =>
    exact subtractInto_sameWrites s o x (hread y (by simp [regsRead, hp]))
      (hread x (by simp [regsRead, hp]))

theorem execUnsettledFx1e_sameWrites (x : Nibble)
    (hread : ∀ r ∈ regsRead s.params s.compat (.unsettledFx1e x),
      (s.withUnreadOf o).getReg r = s.getReg r) :
    bothNext (SameWrites s o) (execUnsettledFx1e x s)
      (execUnsettledFx1e x (s.withUnreadOf o)) := by
  rw [execUnsettledFx1e, execUnsettledFx1e, State.withUnreadOf_params]
  cases hp : s.params.opFx1e with
  | unsettled => exact .fatal _
  | unknown => exact .warn _
  | addI =>
    have hx : (s.withUnreadOf o).getReg x = s.getReg x := hread x (by simp [regsRead, hp])
    exact update_sameWrites s o State.setI (congrArg (fun b : Byte => s.i + b.setWidth 16) hx)
      fun _ => .shared rfl rfl rfl rfl rfl

end

/-- Execution makes the same writes in two states that differ only in the sound timer, the error
status, `result`, and registers its row does not read (R22, R36). -/
theorem exec_sameWrites (i : Instr) (s o : State)
    (hread : ∀ r ∈ regsRead s.params s.compat i, (s.withUnreadOf o).getReg r = s.getReg r) :
    bothNext (SameWrites s o) (exec i s) (exec i (s.withUnreadOf o)) := by
  cases i
  case ret => exact execRet_sameWrites s o
  case call nnn => exact execCall_sameWrites s o nnn
  case jpV0 nnn =>
    exact jumpWithOffset_sameWrites s o _ offsetReg nnn (hread _ (.head _))
  case jpVx x nnn => exact jumpWithOffset_sameWrites s o _ x nnn (hread x (.head _))
  case drw x y n =>
    exact execDrw_sameWrites s o x y n (hread x (.head _)) (hread y (.tail _ (.head _)))
  case unsettled8xy7 x y => exact execUnsettled8xy7_sameWrites s o x y hread
  case unsettledFx1e x => exact execUnsettledFx1e_sameWrites s o x hread
  case unsettledF0N0 | unsettledF0Ne => exact .fatal _
  case unknown w => exact .warn w
  case cls => exact .setGfx _
  case jp | ldI => exact .shared rfl rfl rfl rfl rfl
  case ldDtVx x =>
    exact update_sameWrites s o State.setDt (hread x (.head _)) fun _ => .shared rfl rfl rfl rfl rfl
  case ldStVx x => exact update_sameWrites s o State.setSt (hread x (.head _)) .setSt
  case rnd x nn =>
    have hdraw : SameWrites s o s.afterDraw (s.withUnreadOf o).afterDraw :=
      .shared rfl rfl rfl rfl rfl
    exact hdraw.setReg x _
  case shr x y =>
    have hsrc := s.shiftSource_withUnreadOf o x y hread
    exact setResultAndFlag_sameWrites s o x (by rw [hsrc]) (by rw [hsrc])
  case shl x y =>
    have hsrc := s.shiftSource_withUnreadOf o x y hread
    exact setResultAndFlag_sameWrites s o x (by rw [hsrc]) (by rw [hsrc])
  case addVxVy x y =>
    have hx := hread x (.head _)
    have hy := hread y (.tail _ (.head _))
    exact setResultAndFlag_sameWrites s o x (by rw [hx, hy]) (by rw [hx, hy])
  case subVxVy x y =>
    exact subtractInto_sameWrites s o x (hread x (.head _)) (hread y (.tail _ (.head _)))
  case seVxNn x nn | sneVxNn x nn =>
    exact update_sameWrites s o State.skipIf (by rw [hread x (.head _)]) .skipIf
  case seVxVy x y | sneVxVy x y =>
    exact update_sameWrites s o State.skipIf
      (by rw [hread x (.head _), hread y (.tail _ (.head _))]) .skipIf
  case ldVxNn | ldVxDt => exact setReg_sameWrites s o _ rfl
  case addVxNn x nn => exact setReg_sameWrites s o x (by rw [hread x (.head _)])
  case ldVxVy x y => exact setReg_sameWrites s o x (hread y (.head _))
  case orVxVy x y | andVxVy x y | xorVxVy x y =>
    exact setReg_sameWrites s o x (by rw [hread x (.head _), hread y (.tail _ (.head _))])

/-- Settles O56. The writes are those of the table by `exec_getReg`; with another register file
that agrees on the registers read, `exec_sameWrites` gives the same writes, and the fields it
does not share are untouched by the change. -/
theorem registerAccessFollowsTheTable : Obligations.RegisterAccessFollowsTheTable := by
  refine fun i s t h => ⟨exec_getReg h, fun v' hread => ?_⟩
  obtain ⟨t', h', hw⟩ := exists_of_bothNext (exec_sameWrites i s { s with v := v' } hread) h
  refine ⟨t', h', ?_, hw.regs⟩
  calc t' = t.withUnreadOf t' := hw.frame
    _ = { t with v := t'.v } := by
      rw [State.withUnreadOf, hw.st.eq rfl, hw.halted.eq rfl, hw.fault.eq rfl, hw.result.eq rfl]

/-- Settles O58: every register is read alike, so the registers agree after the same writes. -/
theorem executionIgnoresSoundTimerAndStatus : Obligations.ExecutionIgnoresSoundTimerAndStatus := by
  intro i s t b h f r hexec
  obtain ⟨t', h', hw⟩ := exists_of_bothNext
    (exec_sameWrites i s { s with st := b, halted := h, fault := f, result := r } fun _ _ => rfl)
    hexec
  refine ⟨t', h', ?_⟩
  have hv : t'.v = t.v := t.v_eq_of_getReg_eq t' fun r => (hw.regs r).eq rfl
  calc t' = t.withUnreadOf t' := hw.frame
    _ = { t with st := t'.st, halted := t'.halted, fault := t'.fault, result := t'.result } := by
      rw [State.withUnreadOf, hv]

end Sys2Proof.Machine

/-! PROOFS. Memory along a run (spec 20_memory.md R53, R59, R60): no step and no host move short
of a reset writes it, so every read returns the byte of the reset image. -/

namespace Sys2Proof.Machine

/-! ### One step -/

/-- A step writes neither the mode, nor the parameters, nor the memory, whether it idles, raises
the fetch's error or executes (R28, R53). -/
theorem step_keeps {s t : State} (h : step s = .next t) :
    t.compat = s.compat ∧ t.params = s.params ∧ t.mem = s.mem := by
  rcases step_cases s t h with ⟨-, rfl⟩ | ⟨-, -, rfl⟩ | ⟨-, -, hexec⟩
  · exact ⟨rfl, rfl, rfl⟩
  · exact ⟨rfl, rfl, rfl⟩
  · simpa using exec_keeps hexec

/-- Settles O11. -/
theorem stepKeepsMemoryModeAndParameters : Obligations.StepKeepsMemoryModeAndParameters := by
  intro s t h
  obtain ⟨hcompat, hparams, hmem⟩ := step_keeps h
  exact ⟨s.memRead_congr t hmem hparams, hcompat, hparams⟩

/-! ### Sequences of moves -/

/-- A sequence that completes is a move that completes and the rest from there. -/
theorem applyMoves_cons_eq_next {m : Move} {ms : List Move} {s u : State} :
    applyMoves (m :: ms) s = .next u ↔
      ∃ t, applyMove m s = .next t ∧ applyMoves ms t = .next u := by
  rw [applyMoves]
  cases applyMove m s <;> simp

/-- What each move of a sequence keeps, the sequence keeps. -/
theorem applyMoves_invariant {P : State → Prop} {ms : List Move} {s u : State}
    (hkeep : ∀ m ∈ ms, ∀ s t, P s → applyMove m s = .next t → P t)
    (hs : P s) (h : applyMoves ms s = .next u) : P u := by
  induction ms generalizing s with
  | nil =>
    cases h
    exact hs
  | cons m ms ih =>
    obtain ⟨t, hm, hms⟩ := applyMoves_cons_eq_next.1 h
    obtain ⟨hkeep_m, hkeep_ms⟩ := List.forall_mem_cons.1 hkeep
    exact ih hkeep_ms (hkeep_m s t hs hm) hms

/-! ### The image of the reset -/

/-- The memory of `s` is `image` under the parameters `p`. -/
def State.HoldsImage (p : Params) (image : Memory) (s : State) : Prop :=
  s.params = p ∧ s.mem = image

/-- The host writes timers and the random byte; short of a reset, not the memory (R233). -/
theorem applyMove_keeps_image {p : Params} {image : Memory} {m : Move} (hm : m.isReset = false)
    (s t : State) (hs : s.HoldsImage p image) (h : applyMove m s = .next t) :
    t.HoldsImage p image := by
  obtain ⟨hp, himage⟩ := hs
  rcases m with _ | ⟨b | b | b | ⟨image', c⟩⟩
  case cycle =>
    obtain ⟨-, hparams, hmem⟩ := step_keeps h
    exact ⟨hparams.trans hp, hmem.trans himage⟩
  case host.reset => cases hm
  all_goals
    cases h
    exact ⟨hp, himage⟩

/-- What a state reads that holds the image: its byte in range, none past the end (R51, R56). -/
theorem State.HoldsImage.memRead {p : Params} {image : Memory} {s : State}
    (hs : s.HoldsImage p image) (a : Nat) :
    s.memRead a = if a < p.memSize then some (Memory.read image a) else none := by
  obtain ⟨rfl, rfl⟩ := hs
  rfl

/-- Settles O12: the reset state holds the image, and no move of the sequence changes that. -/
theorem memoryReadsTheResetImage : Obligations.MemoryReadsTheResetImage := by
  intro ms p image c d t hms h
  have ht : t.HoldsImage p image :=
    applyMoves_invariant (fun m hm => applyMove_keeps_image (hms m hm)) ⟨rfl, rfl⟩ h
  exact ht.memRead

end Sys2Proof.Machine

/-! PROOFS. The decoder and the encoder (spec 30_encoding.md R70 to R85): the rows of the opcode
table as a relation between words and instructions, the inversion of `decode` onto it, and the
two round trips. -/

namespace Sys2Proof

/-! ### A word from its fields -/

section
variable {w : Word} {f n : Nibble} {nn : Byte}

/-- Two neighbouring slices of a word are one slice. -/
theorem slice_append_slice (w : Word) {lo a b hi : Nat} (h : hi = lo + b) :
    w.extractLsb' hi a ++ w.extractLsb' lo b = w.extractLsb' lo (a + b) :=
  BitVec.extractLsb'_append_extractLsb'_eq_extractLsb' h

theorem append_fieldNNN (hf : fieldFirst w = f) : f ++ fieldNNN w = w := by
  subst hf
  exact (slice_append_slice w rfl).trans BitVec.extractLsb'_eq_self

theorem append_fieldX_append (hf : fieldFirst w = f) (hnn : fieldNN w = nn) :
    f ++ fieldX w ++ nn = w := by
  subst hf hnn
  calc fieldFirst w ++ fieldX w ++ fieldNN w
    _ = w.extractLsb' 8 8 ++ fieldNN w := congrArg (· ++ fieldNN w) (slice_append_slice w rfl)
    _ = w := (slice_append_slice w rfl).trans BitVec.extractLsb'_eq_self

theorem append_fieldMid_append (hf : fieldFirst w = f) (hn : fieldN w = n) :
    f ++ fieldMid w ++ n = w := by
  subst hf hn
  calc fieldFirst w ++ fieldMid w ++ fieldN w
    _ = w.extractLsb' 4 12 ++ fieldN w := congrArg (· ++ fieldN w) (slice_append_slice w rfl)
    _ = w := (slice_append_slice w rfl).trans BitVec.extractLsb'_eq_self

theorem append_fieldX_fieldY_append (hf : fieldFirst w = f) (hn : fieldN w = n) :
    f ++ fieldX w ++ fieldY w ++ n = w := by
  subst hf hn
  exact (word_eq_nibbles w).symm

/-- The X nibble of a word is the first nibble of its address field (R74). -/
theorem fieldNNN_slice_eq_fieldX (w : Word) : (fieldNNN w).extractLsb' 8 4 = fieldX w := by
  rw [← fieldX_addr (fieldFirst w), append_fieldNNN rfl]

end

/-! ### The UNKNOWN words by family (R83) -/

section
variable {p : Params} {w : Word}

theorem unknownWord_iff : unknownWord p w = true ↔
    (fieldFirst w = 0x0#4 ∧ unknownFamily0 p w = true) ∨
    (fieldFirst w = 0x8#4 ∧ unknownFamily8 p w = true) ∨ fieldFirst w = 0xE#4 ∨
    (fieldFirst w = 0xF#4 ∧ unknownFamilyF p w = true) := by
  simp [unknownWord, fieldFirst, or_assoc]

theorem unknownFamily0_iff : unknownFamily0 p w = true ↔
    match p.f0Decode with
    | .unsettled => fieldN w ≠ 0x0#4 ∧ fieldN w ≠ 0xE#4
    | .exact => w ≠ 0x00E0#16 ∧ w ≠ 0x00EE#16
    | .lastByte => fieldNN w ≠ 0xE0#8 ∧ fieldNN w ≠ 0xEE#8
    | .lastNibble => fieldN w ≠ 0x0#4 ∧ fieldN w ≠ 0xE#4 := by
  unfold unknownFamily0
  cases p.f0Decode <;> simp [fieldN, fieldNN]

theorem unknownFamily8_iff : unknownFamily8 p w = true ↔
    (8 ≤ (fieldN w).toNat ∧ (fieldN w).toNat ≠ 0xE) ∨
    ((fieldN w).toNat = 7 ∧ p.op8xy7 = .unknown) := by
  simp [unknownFamily8, fieldN]

theorem unknownFamilyF_iff : unknownFamilyF p w = true ↔
    ((fieldNN w).toNat ≠ 0x07 ∧ (fieldNN w).toNat ≠ 0x15 ∧ (fieldNN w).toNat ≠ 0x18 ∧
      (fieldNN w).toNat ≠ 0x1E) ∨ ((fieldNN w).toNat = 0x1E ∧ p.opFx1e = .unknown) := by
  simp [unknownFamilyF, fieldNN, ← BitVec.toNat_inj, and_assoc]

theorem decodeFamily0_of_unknown (h : unknownFamily0 p w = true) :
    decodeFamily0 p w = .unknown w := by
  rw [unknownFamily0_iff] at h
  unfold decodeFamily0
  cases hp : p.f0Decode <;> simp only [hp] at h <;> obtain ⟨h0, hE⟩ := h
  case unsettled =>
    have hcls : w ≠ 0x00E0#16 := fun e => h0 (e ▸ rfl)
    have hret : w ≠ 0x00EE#16 := fun e => hE (e ▸ rfl)
    simp [*]
  all_goals simp [*]

theorem decodeFamily8_of_unknown (h : unknownFamily8 p w = true) :
    decodeFamily8 p w = .unknown w := by
  rw [unknownFamily8_iff] at h
  unfold decodeFamily8
  split
  case h_8 => simp_all
  case h_10 => rfl
  all_goals omega

theorem decodeFamilyF_of_unknown (h : unknownFamilyF p w = true) :
    decodeFamilyF p w = .unknown w := by
  rw [unknownFamilyF_iff] at h
  unfold decodeFamilyF
  split
  case h_4 => simp_all
  case h_5 => rfl
  all_goals omega

/-- The words R83 lists decode to UNKNOWN. -/
theorem decode_of_unknownWord (c : Compat) (h : unknownWord p w = true) :
    decode p c w = .unknown w := by
  rcases unknownWord_iff.1 h with ⟨hf, h0⟩ | ⟨hf, h8⟩ | hf | ⟨hf, hF⟩
  · rw [decode_family0 p c w hf, decodeFamily0_of_unknown h0]
  · rw [decode_family8 p c w hf, decodeFamily8_of_unknown h8]
  · simp [decode, hf]
  · rw [decode_familyF p c w hf, decodeFamilyF_of_unknown hF]

end

/-! ### The rows a parameter or the mode selects -/

section
variable {p : Params} {c : Compat}

/-- Family B with the X nibble `x` is JP_V0 (R78). -/
def SelectsJpV0 (p : Params) (c : Compat) (x : Nibble) : Prop :=
  p.bDecode = .byXNibble ∧ x = 0x0#4 ∨ p.bDecode = .byMode ∧ c = .original

/-- Family B with the X nibble `x` is JP_VX (R78). -/
def SelectsJpVx (p : Params) (c : Compat) (x : Nibble) : Prop :=
  p.bDecode = .byXNibble ∧ x ≠ 0x0#4 ∨ p.bDecode = .byMode ∧ c = .new

theorem jpV0_wf_iff {nnn : Addr} :
    (Instr.jpV0 nnn).wf p c = true ↔ SelectsJpV0 p c (nnn.extractLsb' 8 4) := by
  unfold SelectsJpV0
  cases hp : p.bDecode <;> simp [Instr.wf, hp]

theorem jpVx_wf_iff {x : Nibble} {nnn : Addr} :
    (Instr.jpVx x nnn).wf p c = true ↔ nnn.extractLsb' 8 4 = x ∧ SelectsJpVx p c x := by
  unfold SelectsJpVx
  cases hp : p.bDecode <;> simp [Instr.wf, hp]

@[simp] theorem unsettledF0N0_wf_iff {mid : Byte} :
    (Instr.unsettledF0N0 mid).wf p c = true ↔ p.f0Decode = .unsettled ∧ mid ≠ 0x0E#8 := by
  simp [Instr.wf]

@[simp] theorem unsettledF0Ne_wf_iff {mid : Byte} :
    (Instr.unsettledF0Ne mid).wf p c = true ↔ p.f0Decode = .unsettled ∧ mid ≠ 0x0E#8 := by
  simp [Instr.wf]

theorem decode_jpV0 {w : Word} (hf : fieldFirst w = 0xB#4) (h : SelectsJpV0 p c (fieldX w)) :
    decode p c w = .jpV0 (fieldNNN w) := by
  rw [decode_familyB p c w hf]
  rcases h with ⟨hp, hx⟩ | ⟨hp, rfl⟩
  · simp [decodeFamilyB, hp, hx]
  · simp [decodeFamilyB, hp]

theorem decode_jpVx {w : Word} (hf : fieldFirst w = 0xB#4) (h : SelectsJpVx p c (fieldX w)) :
    decode p c w = .jpVx (fieldX w) (fieldNNN w) := by
  rw [decode_familyB p c w hf]
  rcases h with ⟨hp, hx⟩ | ⟨hp, rfl⟩
  · simp [decodeFamilyB, hp, hx]
  · simp [decodeFamilyB, hp]

/-- The middle byte tells a family-0 word from 00E0 and 00EE (R76). -/
theorem append_mid_append_ne {mid : Byte} (hmid : mid ≠ 0x0E#8) (n n' : Nibble) :
    (0x0#4 ++ mid ++ n : Word) ≠ (0x0#4 ++ 0x0E#8 ++ n' : Word) := fun e =>
  hmid (by rw [← fieldMid_mid 0x0#4 n mid, e, fieldMid_mid])

/-- The family-0 words other than 00E0 and 00EE under `P_F0_DECODE = Unsettled` (R76). -/
theorem decode_mid_of_unsettled {mid : Byte} (hp : p.f0Decode = .unsettled)
    (hmid : mid ≠ 0x0E#8) (n : Nibble) :
    decode p c (0x0#4 ++ mid ++ n) =
      if n = 0x0#4 then .unsettledF0N0 mid
      else if n = 0xE#4 then .unsettledF0Ne mid
      else .unknown (0x0#4 ++ mid ++ n) := by
  have hcls : (0x0#4 ++ mid ++ n : Word) ≠ 0x00E0#16 := append_mid_append_ne hmid n 0x0#4
  have hret : (0x0#4 ++ mid ++ n : Word) ≠ 0x00EE#16 := append_mid_append_ne hmid n 0xE#4
  rw [decode_family0 p c _ (fieldFirst_mid ..)]
  simp [decodeFamily0, hp, hcls, hret]

/-- 8XY7 by `P_8XY7` (R77). -/
theorem decode_8xy7 (x y : Nibble) : decode p c (0x8#4 ++ x ++ y ++ 0x7#4) =
    if p.op8xy7 = .unknown then .unknown (0x8#4 ++ x ++ y ++ 0x7#4)
    else .unsettled8xy7 x y := by
  rw [decode_family8 p c _ (fieldFirst_regReg ..)]
  cases hp : p.op8xy7 <;> simp [decodeFamily8, hp]

/-- FX1E by `P_FX1E` (R79). -/
theorem decode_fx1e (x : Nibble) : decode p c (0xF#4 ++ x ++ 0x1E#8) =
    if p.opFx1e = .unknown then .unknown (0xF#4 ++ x ++ 0x1E#8) else .unsettledFx1e x := by
  rw [decode_familyF p c _ (fieldFirst_regByte ..)]
  cases hp : p.opFx1e <;> simp [decodeFamilyF, hp]

end

/-! ### The rows of the opcode table -/

/-- The readings of family 0 by the last bits alone, under which several words are CLS and
several are RET (R76). -/
def Params.readsLastBits (p : Params) : Prop :=
  p.f0Decode = .lastByte ∨ p.f0Decode = .lastNibble

/-- The rows of R75 to R79 and R83: the words of each row, by their fields and the row's
parameter, and the instruction they stand for. -/
inductive TableRow (p : Params) (c : Compat) (w : Word) : Instr → Prop where
  | cls (hf : fieldFirst w = 0x0#4) (hw : w = 0x00E0#16 ∨ p.readsLastBits) : TableRow p c w .cls
  | ret (hf : fieldFirst w = 0x0#4) (hw : w = 0x00EE#16 ∨ p.readsLastBits) : TableRow p c w .ret
  | jp (hf : fieldFirst w = 0x1#4) : TableRow p c w (.jp (fieldNNN w))
  | call (hf : fieldFirst w = 0x2#4) : TableRow p c w (.call (fieldNNN w))
  | seVxNn (hf : fieldFirst w = 0x3#4) : TableRow p c w (.seVxNn (fieldX w) (fieldNN w))
  | sneVxNn (hf : fieldFirst w = 0x4#4) : TableRow p c w (.sneVxNn (fieldX w) (fieldNN w))
  | seVxVy (hf : fieldFirst w = 0x5#4) : TableRow p c w (.seVxVy (fieldX w) (fieldY w))
  | ldVxNn (hf : fieldFirst w = 0x6#4) : TableRow p c w (.ldVxNn (fieldX w) (fieldNN w))
  | addVxNn (hf : fieldFirst w = 0x7#4) : TableRow p c w (.addVxNn (fieldX w) (fieldNN w))
  | ldVxVy (hf : fieldFirst w = 0x8#4) (hn : fieldN w = 0x0#4) :
      TableRow p c w (.ldVxVy (fieldX w) (fieldY w))
  | orVxVy (hf : fieldFirst w = 0x8#4) (hn : fieldN w = 0x1#4) :
      TableRow p c w (.orVxVy (fieldX w) (fieldY w))
  | andVxVy (hf : fieldFirst w = 0x8#4) (hn : fieldN w = 0x2#4) :
      TableRow p c w (.andVxVy (fieldX w) (fieldY w))
  | xorVxVy (hf : fieldFirst w = 0x8#4) (hn : fieldN w = 0x3#4) :
      TableRow p c w (.xorVxVy (fieldX w) (fieldY w))
  | addVxVy (hf : fieldFirst w = 0x8#4) (hn : fieldN w = 0x4#4) :
      TableRow p c w (.addVxVy (fieldX w) (fieldY w))
  | subVxVy (hf : fieldFirst w = 0x8#4) (hn : fieldN w = 0x5#4) :
      TableRow p c w (.subVxVy (fieldX w) (fieldY w))
  | shr (hf : fieldFirst w = 0x8#4) (hn : fieldN w = 0x6#4) :
      TableRow p c w (.shr (fieldX w) (fieldY w))
  | shl (hf : fieldFirst w = 0x8#4) (hn : fieldN w = 0xE#4) :
      TableRow p c w (.shl (fieldX w) (fieldY w))
  | sneVxVy (hf : fieldFirst w = 0x9#4) : TableRow p c w (.sneVxVy (fieldX w) (fieldY w))
  | ldI (hf : fieldFirst w = 0xA#4) : TableRow p c w (.ldI (fieldNNN w))
  | jpV0 (hf : fieldFirst w = 0xB#4) (hx : SelectsJpV0 p c (fieldX w)) :
      TableRow p c w (.jpV0 (fieldNNN w))
  | jpVx (hf : fieldFirst w = 0xB#4) (hx : SelectsJpVx p c (fieldX w)) :
      TableRow p c w (.jpVx (fieldX w) (fieldNNN w))
  | rnd (hf : fieldFirst w = 0xC#4) : TableRow p c w (.rnd (fieldX w) (fieldNN w))
  | drw (hf : fieldFirst w = 0xD#4) : TableRow p c w (.drw (fieldX w) (fieldY w) (fieldN w))
  | ldVxDt (hf : fieldFirst w = 0xF#4) (hnn : fieldNN w = 0x07#8) :
      TableRow p c w (.ldVxDt (fieldX w))
  | ldDtVx (hf : fieldFirst w = 0xF#4) (hnn : fieldNN w = 0x15#8) :
      TableRow p c w (.ldDtVx (fieldX w))
  | ldStVx (hf : fieldFirst w = 0xF#4) (hnn : fieldNN w = 0x18#8) :
      TableRow p c w (.ldStVx (fieldX w))
  | unsettled8xy7 (hf : fieldFirst w = 0x8#4) (hn : fieldN w = 0x7#4) (hp : p.op8xy7 ≠ .unknown) :
      TableRow p c w (.unsettled8xy7 (fieldX w) (fieldY w))
  | unsettledFx1e (hf : fieldFirst w = 0xF#4) (hnn : fieldNN w = 0x1E#8)
      (hp : p.opFx1e ≠ .unknown) : TableRow p c w (.unsettledFx1e (fieldX w))
  | unsettledF0N0 (hf : fieldFirst w = 0x0#4) (hn : fieldN w = 0x0#4)
      (hp : p.f0Decode = .unsettled) (hw : w ≠ 0x00E0#16) :
      TableRow p c w (.unsettledF0N0 (fieldMid w))
  | unsettledF0Ne (hf : fieldFirst w = 0x0#4) (hn : fieldN w = 0xE#4)
      (hp : p.f0Decode = .unsettled) (hw : w ≠ 0x00EE#16) :
      TableRow p c w (.unsettledF0Ne (fieldMid w))
  | unknown (h : unknownWord p w = true) : TableRow p c w (.unknown w)

/-! ### The inversion of `decode` -/

section
variable {p : Params} {c : Compat} {w : Word}

theorem decodeFamily0_tableRow (hf : fieldFirst w = 0x0#4) :
    TableRow p c w (decodeFamily0 p w) := by
  have hunknown (h : unknownFamily0 p w = true) : TableRow p c w (.unknown w) :=
    .unknown (unknownWord_iff.2 (.inl ⟨hf, h⟩))
  rw [unknownFamily0_iff] at hunknown
  unfold decodeFamily0
  cases hp : p.f0Decode <;> simp only [hp] at hunknown ⊢
  case unsettled =>
    split_ifs with hcls hret h0 hE
    · exact .cls hf (.inl hcls)
    · exact .ret hf (.inl hret)
    · exact .unsettledF0N0 hf h0 hp hcls
    · exact .unsettledF0Ne hf hE hp hret
    · exact hunknown ⟨h0, hE⟩
  case exact =>
    split_ifs with hcls hret
    · exact .cls hf (.inl hcls)
    · exact .ret hf (.inl hret)
    · exact hunknown ⟨hcls, hret⟩
  case lastByte =>
    split_ifs with hcls hret
    · exact .cls hf (.inr (.inl hp))
    · exact .ret hf (.inr (.inl hp))
    · exact hunknown ⟨hcls, hret⟩
  case lastNibble =>
    split_ifs with hcls hret
    · exact .cls hf (.inr (.inr hp))
    · exact .ret hf (.inr (.inr hp))
    · exact hunknown ⟨hcls, hret⟩

theorem decodeFamily8_tableRow (hf : fieldFirst w = 0x8#4) :
    TableRow p c w (decodeFamily8 p w) := by
  have hunknown (h : unknownFamily8 p w = true) : TableRow p c w (.unknown w) :=
    .unknown (unknownWord_iff.2 (.inr (.inl ⟨hf, h⟩)))
  rw [unknownFamily8_iff] at hunknown
  unfold decodeFamily8
  split
  case h_1 hn => exact .ldVxVy hf (BitVec.eq_of_toNat_eq hn)
  case h_2 hn => exact .orVxVy hf (BitVec.eq_of_toNat_eq hn)
  case h_3 hn => exact .andVxVy hf (BitVec.eq_of_toNat_eq hn)
  case h_4 hn => exact .xorVxVy hf (BitVec.eq_of_toNat_eq hn)
  case h_5 hn => exact .addVxVy hf (BitVec.eq_of_toNat_eq hn)
  case h_6 hn => exact .subVxVy hf (BitVec.eq_of_toNat_eq hn)
  case h_7 hn => exact .shr hf (BitVec.eq_of_toNat_eq hn)
  case h_8 hn =>
    cases hp : p.op8xy7
    case unknown => exact hunknown (.inr ⟨hn, hp⟩)
    all_goals exact .unsettled8xy7 hf (BitVec.eq_of_toNat_eq hn) (by simp [hp])
  case h_9 hn => exact .shl hf (BitVec.eq_of_toNat_eq hn)
  case h_10 =>
    simp only [imp_false] at *
    exact hunknown (.inl (by omega))

theorem decodeFamilyB_tableRow (hf : fieldFirst w = 0xB#4) :
    TableRow p c w (decodeFamilyB p c w) := by
  unfold decodeFamilyB
  cases hp : p.bDecode
  case byXNibble =>
    dsimp only
    split_ifs with hx
    · exact .jpV0 hf (.inl ⟨hp, hx⟩)
    · exact .jpVx hf (.inl ⟨hp, hx⟩)
  case byMode =>
    cases c
    · exact .jpV0 hf (.inr ⟨hp, rfl⟩)
    · exact .jpVx hf (.inr ⟨hp, rfl⟩)

theorem decodeFamilyF_tableRow (hf : fieldFirst w = 0xF#4) :
    TableRow p c w (decodeFamilyF p w) := by
  have hunknown (h : unknownFamilyF p w = true) : TableRow p c w (.unknown w) :=
    .unknown (unknownWord_iff.2 (.inr (.inr (.inr ⟨hf, h⟩))))
  rw [unknownFamilyF_iff] at hunknown
  unfold decodeFamilyF
  split
  case h_1 hnn => exact .ldVxDt hf (BitVec.eq_of_toNat_eq hnn)
  case h_2 hnn => exact .ldDtVx hf (BitVec.eq_of_toNat_eq hnn)
  case h_3 hnn => exact .ldStVx hf (BitVec.eq_of_toNat_eq hnn)
  case h_4 hnn =>
    cases hp : p.opFx1e
    case unknown => exact hunknown (.inr ⟨hnn, hp⟩)
    all_goals exact .unsettledFx1e hf (BitVec.eq_of_toNat_eq hnn) (by simp [hp])
  case h_5 h07 h15 h18 h1E => exact hunknown (.inl ⟨h07, h15, h18, h1E⟩)

/-- What a word decodes to is the instruction of its row of the table. -/
theorem decode_tableRow (p : Params) (c : Compat) (w : Word) : TableRow p c w (decode p c w) := by
  unfold decode
  split
  case h_1 hf => exact decodeFamily0_tableRow (BitVec.eq_of_toNat_eq hf)
  case h_2 hf => exact .jp (BitVec.eq_of_toNat_eq hf)
  case h_3 hf => exact .call (BitVec.eq_of_toNat_eq hf)
  case h_4 hf => exact .seVxNn (BitVec.eq_of_toNat_eq hf)
  case h_5 hf => exact .sneVxNn (BitVec.eq_of_toNat_eq hf)
  case h_6 hf => exact .seVxVy (BitVec.eq_of_toNat_eq hf)
  case h_7 hf => exact .ldVxNn (BitVec.eq_of_toNat_eq hf)
  case h_8 hf => exact .addVxNn (BitVec.eq_of_toNat_eq hf)
  case h_9 hf => exact decodeFamily8_tableRow (BitVec.eq_of_toNat_eq hf)
  case h_10 hf => exact .sneVxVy (BitVec.eq_of_toNat_eq hf)
  case h_11 hf => exact .ldI (BitVec.eq_of_toNat_eq hf)
  case h_12 hf => exact decodeFamilyB_tableRow (BitVec.eq_of_toNat_eq hf)
  case h_13 hf => exact .rnd (BitVec.eq_of_toNat_eq hf)
  case h_14 hf => exact .drw (BitVec.eq_of_toNat_eq hf)
  case h_15 hf =>
    have hE : fieldFirst w = 0xE#4 := BitVec.eq_of_toNat_eq hf
    exact .unknown (unknownWord_iff.2 (.inr (.inr (.inl hE))))
  case h_16 =>
    have hlt := (fieldFirst w).isLt
    simp only [imp_false] at *
    exact decodeFamilyF_tableRow (BitVec.eq_of_toNat_eq (show _ = 15 by omega))

end

/-! ### The round trips -/

/-- Settles O13. Most words have the row's family, last nibble or last byte written in them, and
the field lemmas read them back; the rows a parameter or the mode selects have lemmas of their
own. -/
theorem decodeOfEncodeIsTheInstruction : Obligations.DecodeOfEncodeIsTheInstruction := by
  intro p c i h
  cases i
  case unknown w => exact decode_of_unknownWord c h
  case unsettledF0N0 mid =>
    obtain ⟨hp, hmid⟩ := unsettledF0N0_wf_iff.1 h
    exact decode_mid_of_unsettled hp hmid 0x0#4
  case unsettledF0Ne mid =>
    obtain ⟨hp, hmid⟩ := unsettledF0Ne_wf_iff.1 h
    exact decode_mid_of_unsettled hp hmid 0xE#4
  case jpV0 nnn =>
    rw [encode, decode_jpV0 (fieldFirst_addr ..) (by rw [fieldX_addr]; exact jpV0_wf_iff.1 h),
      fieldNNN_addr]
  case jpVx x nnn =>
    obtain ⟨rfl, hx⟩ := jpVx_wf_iff.1 h
    rw [encode, decode_jpVx (fieldFirst_addr ..) (by rwa [fieldX_addr]), fieldX_addr,
      fieldNNN_addr]
  case unsettled8xy7 x y => exact (decode_8xy7 x y).trans (if_neg (bne_iff_ne.1 h))
  case unsettledFx1e x => exact (decode_fx1e x).trans (if_neg (bne_iff_ne.1 h))
  case cls | ret =>
    rw [encode, decode_family0 p c _ rfl, decodeFamily0]
    cases p.f0Decode <;> rfl
  case ldVxVy | orVxVy | andVxVy | xorVxVy | addVxVy | subVxVy | shr | shl =>
    rw [encode, decode_family8 p c _ (fieldFirst_regReg ..)]
    simp [decodeFamily8]
  case ldVxDt | ldDtVx | ldStVx =>
    rw [encode, decode_familyF p c _ (fieldFirst_regByte ..)]
    simp [decodeFamilyF]
  all_goals simp [encode, decode]

section
variable {p : Params} {c : Compat} {w : Word} {i : Instr}

/-- The row's instruction is encoded from the fields of the word, so it gives the word back where
no bit of the word is ignored. -/
theorem TableRow.encode_eq (h : TableRow p c w i)
    (h0 : fieldFirst w = 0x0#4 → ¬p.readsLastBits) (h5 : fieldFirst w ≠ 0x5#4)
    (h9 : fieldFirst w ≠ 0x9#4) : encode i = w := by
  cases h
  case cls hf hw | ret hf hw => exact (hw.resolve_right (h0 hf)).symm
  case seVxVy hf => exact absurd hf h5
  case sneVxVy hf => exact absurd hf h9
  case jp hf | call hf | ldI hf | jpV0 hf _ | jpVx hf _ => exact append_fieldNNN hf
  case seVxNn hf | sneVxNn hf | ldVxNn hf | addVxNn hf | rnd hf =>
    exact append_fieldX_append hf rfl
  case ldVxDt hf hnn | ldDtVx hf hnn | ldStVx hf hnn | unsettledFx1e hf hnn _ =>
    exact append_fieldX_append hf hnn
  case ldVxVy hf hn | orVxVy hf hn | andVxVy hf hn | xorVxVy hf hn | addVxVy hf hn |
      subVxVy hf hn | shr hf hn | shl hf hn | unsettled8xy7 hf hn _ =>
    exact append_fieldX_fieldY_append hf hn
  case drw hf => exact append_fieldX_fieldY_append hf rfl
  case unsettledF0N0 hf hn _ _ | unsettledF0Ne hf hn _ _ => exact append_fieldMid_append hf hn
  case unknown => rfl

theorem TableRow.wf (h : TableRow p c w i) : i.wf p c = true := by
  cases h
  case jpV0 hx =>
    rw [jpV0_wf_iff, fieldNNN_slice_eq_fieldX]
    exact hx
  case jpVx hx => exact jpVx_wf_iff.2 ⟨fieldNNN_slice_eq_fieldX w, hx⟩
  case unsettled8xy7 hp | unsettledFx1e hp => simpa [Instr.wf] using hp
  case unsettledF0N0 hf hn hp hw | unsettledF0Ne hf hn hp hw =>
    have hmid : fieldMid w ≠ 0x0E#8 := fun e => hw <| by
      rw [← append_fieldMid_append hf hn, e]
      rfl
    simp [hp, hmid]
  case unknown h => exact h
  all_goals rfl

/-- UNKNOWN carries its own word, one of those R83 lists. -/
theorem TableRow.of_unknown {w' : Word} (h : TableRow p c w (.unknown w')) :
    unknownWord p w = true ∧ w' = w := by
  cases h with
  | unknown h => exact ⟨h, rfl⟩

end

/-- Settles O14. -/
theorem encodeOfDecodeIsTheWord : Obligations.EncodeOfDecodeIsTheWord := by
  intro p c w h0 h5 h9
  refine (decode_tableRow p c w).encode_eq (fun hf => ?_) h5 h9
  rcases h0 hf with hp | hp <;> simp [Params.readsLastBits, hp]

/-- Settles O15. -/
theorem decodedInstructionsAreWellFormed : Obligations.DecodedInstructionsAreWellFormed :=
  fun p c w => (decode_tableRow p c w).wf

/-- Settles O16. -/
theorem unknownWordsDecodeToUnknown : Obligations.UnknownWordsDecodeToUnknown := by
  intro p c w w'
  constructor
  · intro h
    exact TableRow.of_unknown (h ▸ decode_tableRow p c w)
  · rintro ⟨h, rfl⟩
    exact decode_of_unknownWord c h

/-! ### The mode (R71) -/

/-- Outside family B the two modes decode alike. -/
theorem decode_mode_of_ne_familyB {p : Params} {w : Word} (hf : fieldFirst w ≠ 0xB#4) :
    decode p .original w = decode p .new w := by
  unfold decode
  split
  case h_12 h => exact absurd (BitVec.eq_of_toNat_eq h) hf
  all_goals rfl

/-- Settles O17. -/
theorem modeChangesDecodingOnlyInFamilyB : Obligations.ModeChangesDecodingOnlyInFamilyB := by
  intro p w hne
  have hf : fieldFirst w = 0xB#4 := by_contra fun hf => hne (decode_mode_of_ne_familyB hf)
  refine ⟨hf, ?_⟩
  rw [decode_familyB p _ w hf, decode_familyB p _ w hf] at hne
  cases hp : p.bDecode
  case byMode => rfl
  case byXNibble => exact absurd (by simp only [decodeFamilyB, hp]) hne

/-! ### The words of single families -/

/-- Settles O18. -/
theorem lastNibbleOfFamilies5And9IsIgnored :
    Obligations.LastNibbleOfFamilies5And9IsIgnored := by
  intro p c x y n
  constructor <;> simp [decode]

theorem fieldMid_eq_ofNat (w : Word) : fieldMid w = BitVec.ofNat 8 (w.toNat / 16) :=
  BitVec.eq_of_toNat_eq (by rw [fieldMid_toNat, BitVec.toNat_ofNat])

/-- Settles O19: family 0's conditions on the word read as numbers. -/
theorem family0FollowsItsParameter : Obligations.Family0FollowsItsParameter := by
  intro p c w hw
  have hf : fieldFirst w = 0x0#4 :=
    BitVec.eq_of_toNat_eq (by rw [fieldFirst_toNat, Nat.div_eq_of_lt hw]; rfl)
  rw [decode_family0 p c w hf]
  refine ⟨fun hp => ?_, fun hp => ?_, fun hp => ?_, fun hp => ?_⟩
  all_goals
    simp only [decodeFamily0, hp, ← BitVec.toNat_inj, fieldN_toNat, fieldNN_toNat,
      fieldMid_eq_ofNat, BitVec.toNat_ofNat, Nat.reducePow, Nat.reduceMod]
  case refine_1 =>
    refine ⟨fun h => by simp [h], fun h => by simp [h], fun h h0 => ?_, fun h hE => ?_,
      fun h0 hE => ?_⟩
    · have hret : w.toNat ≠ 0xEE := by omega
      simp [h, hret, h0]
    · have hcls : w.toNat ≠ 0xE0 := by omega
      simp [h, hcls, hE]
    · have hcls : w.toNat ≠ 0xE0 := by omega
      have hret : w.toNat ≠ 0xEE := by omega
      simp [hcls, hret, h0, hE]
  all_goals exact ⟨fun h => by simp [h], fun h => by simp [h], fun h h' => by simp [h, h']⟩

/-- Settles O20. -/
theorem familyBFollowsItsParameter : Obligations.FamilyBFollowsItsParameter := by
  intro p c x nn
  have hV0 {c : Compat} {x : Nibble} (h : SelectsJpV0 p c x) :
      decode p c (0xB#4 ++ x ++ nn) = .jpV0 (x ++ nn) := by
    rw [decode_jpV0 (fieldFirst_regByte ..) (by rwa [fieldX_regByte]), fieldNNN_regByte]
  have hVx {c : Compat} {x : Nibble} (h : SelectsJpVx p c x) :
      decode p c (0xB#4 ++ x ++ nn) = .jpVx x (x ++ nn) := by
    rw [decode_jpVx (fieldFirst_regByte ..) (by rwa [fieldX_regByte]), fieldX_regByte,
      fieldNNN_regByte]
  exact ⟨fun hp => ⟨hV0 (.inl ⟨hp, rfl⟩), fun hx => hVx (.inl ⟨hp, hx⟩)⟩,
    fun hp => ⟨hV0 (.inr ⟨hp, rfl⟩), hVx (.inr ⟨hp, rfl⟩)⟩⟩

/-- Settles O21. -/
theorem parameterRowsDecodeByTheirParameter :
    Obligations.ParameterRowsDecodeByTheirParameter :=
  fun _ _ x y => ⟨decode_8xy7 x y, decode_fx1e x⟩

/-- Settles O22. -/
theorem sampleWordsDecodeAsTheTableSays : Obligations.SampleWordsDecodeAsTheTableSays := by
  unfold Obligations.SampleWordsDecodeAsTheTableSays
  decide

end Sys2Proof

/-! PROOFS. The cycle (spec 40_cycle.md R100 to R108): the fetch and the advance, the halted core,
and the words that are no operation of the source's table. -/

namespace Sys2Proof.Machine

/-! ### The fetch and the advance (R101, R102) -/

section
variable {s : State} {hi lo : Byte}

/-- A running core that fetches two bytes executes their word from the advanced state. -/
theorem step_of_fetches (hs : s.running) (hf : s.fetches hi lo) :
    step s = exec (decode s.params s.compat (hi ++ lo)) s.advance := by
  obtain ⟨hlt, rfl, rfl⟩ := (s.fetches_iff hi lo).1 hf
  rcases step_of_running s hs with ⟨hge, -⟩ | ⟨-, hstep⟩
  · exact absurd hlt (Nat.not_lt.2 hge)
  · exact hstep

/-- A running core whose fetch misses a byte raises the fetch's error before it advances. -/
theorem step_of_fetch_out_of_bounds (hs : s.running) (hge : s.params.memSize ≤ s.pc.toNat + 1) :
    step s = .next (s.fatal .fetchOutOfBounds) := by
  rcases step_of_running s hs with ⟨-, hstep⟩ | ⟨hlt, -⟩
  · exact hstep
  · exact absurd hlt (Nat.not_lt.2 hge)

/-- The word of two bytes as a number: the byte at the lower address counts 256 (R52). -/
theorem append_bytes_toNat (hi lo : Byte) :
    (hi ++ lo : Word).toNat = 256 * hi.toNat + lo.toNat := by
  calc (hi ++ lo : Word).toNat
    _ = hi.toNat <<< 8 ||| lo.toNat := BitVec.toNat_append hi lo
    _ = hi.toNat <<< 8 + lo.toNat := (Nat.shiftLeft_add_eq_or_of_lt lo.isLt hi.toNat).symm
    _ = 256 * hi.toNat + lo.toNat := by rw [Nat.shiftLeft_eq, Nat.mul_comm]

/-- The bytes of an instruction, put together, are its word (R52). -/
theorem append_of_encodeBytes {i : Instr} (h : encodeBytes i = [hi, lo]) :
    hi ++ lo = encode i := by
  obtain ⟨rfl, rfl⟩ : highByte (encode i) = hi ∧ lowByte (encode i) = lo := by
    simpa [encodeBytes] using h
  exact wordOfBytes_high_low (encode i)

end

/-- Settles O5. -/
theorem cycleFetchesAdvancesAndExecutes : Obligations.CycleFetchesAdvancesAndExecutes := by
  refine fun s hs => ⟨fun hlt => ?_, step_of_fetch_out_of_bounds hs⟩
  have hf := s.fetches_read hlt
  exact ⟨_, _, _, s.pc + 2, hf, append_bytes_toNat .., BitVec.toNat_add s.pc 2,
    step_of_fetches hs hf⟩

/-- Settles O6: the fetched word is the encoding, and decoding undoes it. -/
theorem stepRunsTheEncodedInstruction : Obligations.StepRunsTheEncodedInstruction := by
  intro s i hi lo hs hwf hf hbytes
  calc step s
    _ = exec (decode s.params s.compat (hi ++ lo)) s.advance := step_of_fetches hs hf
    _ = exec i s.advance := by
      rw [append_of_encodeBytes hbytes, decodeOfEncodeIsTheInstruction _ _ _ hwf]

/-- Settles O8. -/
theorem haltedCoreIgnoresStepRequests : Obligations.HaltedCoreIgnoresStepRequests :=
  step_of_halted

/-! ### UNKNOWN words (R106) -/

theorem exec_unknown (w : Word) (s : State) : exec (.unknown w) s = .next (s.warn w) := rfl

/-- Settles O23. -/
theorem unknownWordIsANoOpWithAWarning : Obligations.UnknownWordIsANoOpWithAWarning := by
  refine ⟨fun s hi lo hs hf hw => ?_, fun s w => exec_unknown w s⟩
  calc step s
    _ = exec (decode s.params s.compat (hi ++ lo)) s.advance := step_of_fetches hs hf
    _ = exec (.unknown (hi ++ lo)) s.advance := by rw [decode_of_unknownWord s.compat hw]
    _ = .next (s.advance.warn (hi ++ lo)) := exec_unknown ..

/-! ### UNSETTLED words (R107) -/

theorem unsettledWord_iff {p : Params} {w : Word} : unsettledWord p w = true ↔
    (fieldFirst w = 0x0#4 ∧ p.f0Decode = .unsettled ∧ (fieldN w = 0x0#4 ∨ fieldN w = 0xE#4) ∧
      w ≠ 0x00E0#16 ∧ w ≠ 0x00EE#16) ∨
    (fieldFirst w = 0x8#4 ∧ fieldN w = 0x7#4 ∧ p.op8xy7 = .unsettled) ∨
    (fieldFirst w = 0xF#4 ∧ fieldNN w = 0x1E#8 ∧ p.opFx1e = .unsettled) := by
  simp [unsettledWord, fieldFirst, fieldN, fieldNN, or_assoc, and_assoc]

section
variable {s : State}

theorem exec_unsettledF0N0 (mid : Byte) :
    exec (.unsettledF0N0 mid) s = .next (s.fatal .unsettledEncoding) := rfl

theorem exec_unsettledF0Ne (mid : Byte) :
    exec (.unsettledF0Ne mid) s = .next (s.fatal .unsettledEncoding) := rfl

theorem exec_unsettled8xy7_of_unsettled (hp : s.params.op8xy7 = .unsettled) (x y : Nibble) :
    exec (.unsettled8xy7 x y) s = .next (s.fatal .unsettledEncoding) := by
  simp only [exec, execUnsettled8xy7, hp, raiseFatal]

theorem exec_unsettledFx1e_of_unsettled (hp : s.params.opFx1e = .unsettled) (x : Nibble) :
    exec (.unsettledFx1e x) s = .next (s.fatal .unsettledEncoding) := by
  simp only [exec, execUnsettledFx1e, hp, raiseFatal]

/-- The words of R83's unsettled list execute as the fatal error, whichever row they are of. -/
theorem exec_decode_of_unsettledWord {w : Word} (c : Compat)
    (h : unsettledWord s.params w = true) :
    exec (decode s.params c w) s = .next (s.fatal .unsettledEncoding) := by
  rcases unsettledWord_iff.1 h with ⟨hf, hp, hn, hcls, hret⟩ | ⟨hf, hn, hp⟩ | ⟨hf, hnn, hp⟩
  · rw [decode_family0 s.params c w hf]
    rcases hn with hn | hn
    · simp [decodeFamily0, hp, hcls, hret, hn, exec_unsettledF0N0]
    · simp [decodeFamily0, hp, hcls, hret, hn, exec_unsettledF0Ne]
  · rw [← append_fieldX_fieldY_append hf hn, decode_8xy7, if_neg (by simp [hp])]
    exact exec_unsettled8xy7_of_unsettled hp ..
  · rw [← append_fieldX_append hf hnn, decode_fx1e, if_neg (by simp [hp])]
    exact exec_unsettledFx1e_of_unsettled hp ..

end

/-- Settles O24. -/
theorem unsettledWordRaisesUnsettledEncoding :
    Obligations.UnsettledWordRaisesUnsettledEncoding := by
  refine ⟨fun s hi lo hs hf hw => ?_,
    fun s mid => ⟨exec_unsettledF0N0 mid, exec_unsettledF0Ne mid⟩⟩
  calc step s
    _ = exec (decode s.params s.compat (hi ++ lo)) s.advance := step_of_fetches hs hf
    _ = .next (s.advance.fatal .unsettledEncoding) :=
      exec_decode_of_unsettledWord (s := s.advance) s.compat hw

end Sys2Proof.Machine

/-! PROOFS. Control flow (spec 41_control_flow.md R120 to R129): a rule per instruction and
outcome, and from them the statements about RET, JP, CALL, the skips and the jumps with offset. -/

namespace Sys2Proof.Machine

section
variable {s : State}

/-! ### Return, jump and call (R120 to R122) -/

theorem exec_ret_of_nil (h : s.stack = []) : exec .ret s = .next (s.fatal .stackUnderflow) := by
  simp only [exec, execRet, h, raiseFatal]

theorem exec_ret_of_cons {a : Word} {rest : List Word} (h : s.stack = a :: rest) :
    exec .ret s = .next { s with pc := a, stack := rest } := by
  simp only [exec, execRet, h]

theorem exec_jp (nnn : Addr) : exec (.jp nnn) s = .next (s.setPc (addrOperand nnn)) := rfl

/-- The operand of a jump, as a number, is the address itself: zero extension keeps it (R73). -/
theorem addrOperand_toNat (nnn : Addr) : (addrOperand nnn).toNat = nnn.toNat :=
  BitVec.toNat_setWidth_of_le (by decide)

theorem State.stackFull_iff : s.stackFull = true ↔ s.params.stackLimit = some s.stack.length := by
  simp [s.stackFull_eq_true]

theorem exec_call_of_limit (h : s.params.stackLimit = some s.stack.length) (nnn : Addr) :
    exec (.call nnn) s = .next (s.fatal .stackOverflow) :=
  if_pos (State.stackFull_iff.2 h)

theorem exec_call_of_ne_limit (h : s.params.stackLimit ≠ some s.stack.length) (nnn : Addr) :
    exec (.call nnn) s = .next ((s.push s.pc).setPc (addrOperand nnn)) :=
  if_neg (mt State.stackFull_iff.1 h)

/-! ### The skips (R123 to R126) -/

theorem State.skipIf_beq (s : State) (a b : Byte) :
    s.skipIf (a == b) = { s with pc := if a = b then s.pc + 2#16 else s.pc } := by
  simp [s.skipIf_eq]

theorem State.skipIf_bne (s : State) (a b : Byte) :
    s.skipIf (a != b) = { s with pc := if a = b then s.pc else s.pc + 2#16 } := by
  simp [s.skipIf_eq]

/-! ### The jumps with offset (R127 to R129) -/

theorem jumpWithOffset_of_mode {m : Compat} (h : s.compat = m) (x : Nibble) (nnn : Addr) :
    jumpWithOffset m x nnn s = .next (s.setPc (s.offsetTarget x nnn)) :=
  if_pos h

theorem jumpWithOffset_of_ne_mode {m : Compat} (h : s.compat ≠ m) (x : Nibble) (nnn : Addr) :
    jumpWithOffset m x nnn s = .next (s.fatal .configMismatch) :=
  if_neg h

end

/-! ### The statements -/

/-- Settles O27. -/
theorem returnPopsOrUnderflows : Obligations.ReturnPopsOrUnderflows :=
  fun _ => ⟨exec_ret_of_nil, fun _ _ => exec_ret_of_cons⟩

/-- Settles O28: the core still runs after the jump, so its next fetch finds the bound broken. -/
theorem jumpSetsThePc : Obligations.JumpSetsThePc := by
  intro s nnn
  refine ⟨s.setPc (addrOperand nnn), exec_jp nnn, rfl, addrOperand_toNat nnn, fun hs hge => ?_⟩
  have hrun : (s.setPc (addrOperand nnn)).running := hs
  have hout : s.params.memSize ≤ (addrOperand nnn).toNat + 1 := by rwa [addrOperand_toNat]
  exact step_of_fetch_out_of_bounds hrun hout

/-- Settles O29. -/
theorem callPushesTheReturnAddress : Obligations.CallPushesTheReturnAddress :=
  fun _ nnn =>
    ⟨fun h => ⟨_, exec_call_of_ne_limit h nnn, rfl, addrOperand_toNat nnn⟩,
      fun h => exec_call_of_limit h nnn⟩

/-- Settles O30: the entry RET pops is the one CALL pushed, the `pc` before the jump. -/
theorem returnUndoesCall : Obligations.ReturnUndoesCall := by
  intro s nnn h
  have hstack : ((s.push s.pc).setPc (addrOperand nnn)).stack = s.pc :: s.stack := by
    rw [State.setPc_stack, State.push_stack]
  exact ⟨_, exec_call_of_ne_limit h nnn, exec_ret_of_cons hstack⟩

/-- Settles O31: each skip is `skipIf` on its condition, which compares two bytes. -/
theorem skipsAddTwoWhenTheirConditionHolds : Obligations.SkipsAddTwoWhenTheirConditionHolds :=
  fun s x y nn =>
    ⟨congrArg Host.Outcome.next (s.skipIf_beq (s.getReg x) nn),
      congrArg Host.Outcome.next (s.skipIf_bne (s.getReg x) nn),
      congrArg Host.Outcome.next (s.skipIf_beq (s.getReg x) (s.getReg y)),
      congrArg Host.Outcome.next (s.skipIf_bne (s.getReg x) (s.getReg y))⟩

/-- Settles O32: both instructions are `jumpWithOffset`, each gated by its own mode. -/
theorem jumpWithOffsetBehindItsGate : Obligations.JumpWithOffsetBehindItsGate := by
  intro s x nnn
  refine ⟨fun hc => ?_, fun hc => ?_, fun hc => ?_, fun hc => ?_⟩
  · exact ⟨_, jumpWithOffset_of_mode hc offsetReg nnn, rfl, s.offsetTarget_toNat offsetReg nnn⟩
  · exact jumpWithOffset_of_ne_mode (by simp [hc]) offsetReg nnn
  · exact ⟨_, jumpWithOffset_of_mode hc x nnn, rfl, s.offsetTarget_toNat x nnn⟩
  · exact jumpWithOffset_of_ne_mode (by simp [hc]) x nnn

end Sys2Proof.Machine

/-! PROOFS. The register ALU, the load of `i` and the random byte (spec 42_alu.md R150 to R164): a
rule per instruction, the frames of the two register writes and the arithmetic of the flags. -/

namespace Sys2Proof.Machine

section
variable (s : State) (x y : Nibble)

/-! ### A rule per instruction -/

theorem exec_ldVxNn (nn : Byte) : exec (.ldVxNn x nn) s = .next (s.setReg x nn) := rfl

theorem exec_ldVxVy : exec (.ldVxVy x y) s = .next (s.setReg x (s.getReg y)) := rfl

theorem exec_addVxNn (nn : Byte) :
    exec (.addVxNn x nn) s = .next (s.setReg x (s.getReg x + nn)) := rfl

theorem exec_orVxVy :
    exec (.orVxVy x y) s = .next (s.setReg x (s.getReg x ||| s.getReg y)) := rfl

theorem exec_andVxVy :
    exec (.andVxVy x y) s = .next (s.setReg x (s.getReg x &&& s.getReg y)) := rfl

theorem exec_xorVxVy :
    exec (.xorVxVy x y) s = .next (s.setReg x (s.getReg x ^^^ s.getReg y)) := rfl

theorem exec_addVxVy : exec (.addVxVy x y) s = .next (s.setResultAndFlag x
    (s.getReg x + s.getReg y) (carryOut (s.getReg x) (s.getReg y))) := rfl

theorem exec_subVxVy :
    exec (.subVxVy x y) s = subtractInto x (s.getReg x) (s.getReg y) s := rfl

theorem exec_shr : exec (.shr x y) s = .next (s.setResultAndFlag x
    (s.shiftSource x y >>> 1) (shiftedOutRight (s.shiftSource x y))) := rfl

theorem exec_shl : exec (.shl x y) s = .next (s.setResultAndFlag x
    (s.shiftSource x y <<< 1) (shiftedOutLeft (s.shiftSource x y))) := rfl

theorem exec_ldI (nnn : Addr) : exec (.ldI nnn) s = .next (s.setI (addrOperand nnn)) := rfl

theorem exec_rnd (nn : Byte) :
    exec (.rnd x nn) s = .next (s.afterDraw.setReg x (s.randomByte &&& nn)) := rfl

theorem exec_unsettled8xy7_of_subN (hp : s.params.op8xy7 = .subN) :
    exec (.unsettled8xy7 x y) s = subtractInto x (s.getReg y) (s.getReg x) s := by
  simp only [exec, execUnsettled8xy7, hp, subN]

theorem exec_unsettled8xy7_of_unknown (hp : s.params.op8xy7 = .unknown) :
    exec (.unsettled8xy7 x y) s = .next (s.warn (encode (.unsettled8xy7 x y))) := by
  simp only [exec, execUnsettled8xy7, hp, warnUnknown]

/-! ### The frames of the register writes -/

theorem State.onlyRegs_setReg (b : Byte) : s.onlyRegs (s.setReg x b) [x] :=
  ⟨rfl, fun r hr => s.getReg_setReg_other x r b (List.ne_of_not_mem_cons hr), fun _ => rfl⟩

theorem State.onlyRegs_setResultAndFlag (b : Byte) (f : Bool) :
    s.onlyRegs (s.setResultAndFlag x b f) [x, flagReg] := by
  refine ⟨rfl, fun r hr => ?_, fun _ => rfl⟩
  obtain ⟨hx, hf⟩ : r ≠ x ∧ r ≠ flagReg := by simpa using hr
  exact s.getReg_setResultAndFlag_other x r b f hx hf

/-- The result as a number, where the destination is not VF (R150). -/
theorem State.toNat_getReg_setResultAndFlag_dest {b : Byte} {n : Nat} (hb : b.toNat = n)
    (f : Bool) (hx : x ≠ flagReg) : ((s.setResultAndFlag x b f).getReg x).toNat = n := by
  rw [s.getReg_setResultAndFlag_dest x b f hx, hb]

/-! ### The flags as numbers (R27) -/

theorem flagByte_decide (p : Prop) [Decidable p] : flagByte (decide p) = if p then 1 else 0 := by
  simp [flagByte]

theorem flagByte_toNat (f : Bool) : (flagByte f).toNat = f.toNat := by
  cases f <;> rfl

/-- The carry out of bit 7 is the sum passing 0xFF (R157). -/
theorem flagByte_carryOut (a b : Byte) :
    flagByte (carryOut a b) = if 0xFF < a.toNat + b.toNat then 1 else 0 :=
  flagByte_decide _

/-- Nothing is borrowed when the subtrahend is at most the minuend (R158, R162). -/
theorem flagByte_noBorrow (a b : Byte) :
    flagByte (noBorrow a b) = if b.toNat ≤ a.toNat then 1 else 0 :=
  flagByte_decide _

theorem flagByte_shiftedOutRight_toNat (src : Byte) :
    (flagByte (shiftedOutRight src)).toNat = src.toNat % 2 := by
  calc (flagByte (shiftedOutRight src)).toNat
    _ = (src.toNat.testBit 0).toNat := flagByte_toNat _
    _ = src.toNat / 2 ^ 0 % 2 := Nat.toNat_testBit ..
    _ = src.toNat % 2 := by simp

theorem flagByte_shiftedOutLeft_toNat (src : Byte) :
    (flagByte (shiftedOutLeft src)).toNat = src.toNat / 128 := by
  have hlt := src.isLt
  calc (flagByte (shiftedOutLeft src)).toNat
    _ = (src.toNat.testBit 7).toNat := flagByte_toNat _
    _ = src.toNat / 2 ^ 7 % 2 := Nat.toNat_testBit ..
    _ = src.toNat / 128 := by omega

/-! ### The results as numbers -/

/-- A byte subtraction adds 256 before it subtracts, so that nothing is cut off (R158). -/
theorem toNat_sub_byte (a b : Byte) : (a - b).toNat = (256 + a.toNat - b.toNat) % 256 := by
  have hb := b.isLt
  rw [BitVec.toNat_sub]
  omega

theorem toNat_ushiftRight_one (src : Byte) : (src >>> 1).toNat = src.toNat / 2 := by
  rw [BitVec.toNat_ushiftRight, Nat.shiftRight_one]

theorem toNat_shiftLeft_one (src : Byte) : (src <<< 1).toNat = 2 * src.toNat % 256 := by
  rw [BitVec.toNat_shiftLeft, Nat.shiftLeft_eq, Nat.mul_comm]

/-- The source of a shift, by the mode (R159). -/
theorem State.shiftSource_eq :
    s.shiftSource x y = if s.compat = .original then s.getReg y else s.getReg x := by
  cases hc : s.compat <;> simp [State.shiftSource, hc]

/-- What SUB and SUBN do with their operands, in either order (R158, R162). -/
theorem subtractInto_next (a b : Byte) : ∃ t, subtractInto x a b s = .next t ∧
    s.onlyRegs t [x, 0xF#4] ∧
    (x ≠ 0xF#4 → (t.getReg x).toNat = (256 + a.toNat - b.toNat) % 256) ∧
    t.getReg 0xF#4 = if b.toNat ≤ a.toNat then 1 else 0 :=
  ⟨_, rfl, s.onlyRegs_setResultAndFlag x _ _,
    s.toNat_getReg_setResultAndFlag_dest x (toNat_sub_byte a b) _,
    (s.getReg_setResultAndFlag_flag x _ _).trans (flagByte_noBorrow a b)⟩

/-- The draw answers with the byte on the port, if there is one (R233). -/
theorem State.randomByte_of_port {r : Byte} (h : s.randPort = some r) : s.randomByte = r := by
  rw [State.randomByte, h, Option.getD_some]

end

/-! ### The statements -/

/-- Settles O34. -/
theorem loadsSetTheirDestination : Obligations.LoadsSetTheirDestination :=
  fun s x y nn =>
    ⟨⟨_, exec_ldVxNn s x nn, s.onlyRegs_setReg x _, s.getReg_setReg_same x _⟩,
      ⟨_, exec_ldVxVy s x y, s.onlyRegs_setReg x _, s.getReg_setReg_same x _⟩⟩

/-- Settles O35. -/
theorem addConstantWrapsWithoutFlag : Obligations.AddConstantWrapsWithoutFlag := by
  refine fun s x nn => ⟨_, exec_addVxNn s x nn, s.onlyRegs_setReg x _, ?_⟩
  rw [s.getReg_setReg_same]
  exact BitVec.toNat_add ..

/-- Settles O36: each operation of `BitVec` acts bit by bit. -/
theorem logicActsBitwiseWithoutFlag : Obligations.LogicActsBitwiseWithoutFlag := by
  refine fun s x y => ⟨⟨_, exec_orVxVy s x y, s.onlyRegs_setReg x _, fun k => ?_⟩,
    ⟨_, exec_andVxVy s x y, s.onlyRegs_setReg x _, fun k => ?_⟩,
    ⟨_, exec_xorVxVy s x y, s.onlyRegs_setReg x _, fun k => ?_⟩⟩
  · rw [s.getReg_setReg_same, BitVec.getLsbD_or]
  · rw [s.getReg_setReg_same, BitVec.getLsbD_and]
  · rw [s.getReg_setReg_same, BitVec.getLsbD_xor]

/-- Settles O37: the flag is written last, from the operands as they were (R150). -/
theorem addLeavesTheCarryInVF : Obligations.AddLeavesTheCarryInVF :=
  fun s x y => ⟨_, exec_addVxVy s x y, s.onlyRegs_setResultAndFlag x _ _,
    s.toNat_getReg_setResultAndFlag_dest x (BitVec.toNat_add ..) _,
    (s.getReg_setResultAndFlag_flag x _ _).trans (flagByte_carryOut _ _)⟩

/-- Settles O38: `subtractInto` of V[x] and V[y]. -/
theorem subtractLeavesNoBorrowInVF : Obligations.SubtractLeavesNoBorrowInVF := by
  intro s x y
  rw [exec_subVxVy]
  exact subtractInto_next s x (s.getReg x) (s.getReg y)

/-- Settles O25: under SubN it is `subtractInto` with the operands of SUB exchanged. -/
theorem op8xy7FollowsItsParameter : Obligations.Op8xy7FollowsItsParameter := by
  refine fun s x y => ⟨fun hp => ?_, exec_unsettled8xy7_of_unknown s x y,
    fun hp => exec_unsettled8xy7_of_unsettled hp x y⟩
  rw [exec_unsettled8xy7_of_subN s x y hp]
  exact subtractInto_next s x (s.getReg y) (s.getReg x)

/-- Settles O39. -/
theorem shiftsTakeTheirSourceFromTheMode : Obligations.ShiftsTakeTheirSourceFromTheMode := by
  intro s x y src hsrc
  obtain rfl : src = s.shiftSource x y := hsrc.trans (s.shiftSource_eq x y).symm
  refine ⟨⟨_, exec_shr s x y, s.onlyRegs_setResultAndFlag x _ _,
      s.toNat_getReg_setResultAndFlag_dest x (toNat_ushiftRight_one _) _, ?_⟩,
    ⟨_, exec_shl s x y, s.onlyRegs_setResultAndFlag x _ _,
      s.toNat_getReg_setResultAndFlag_dest x (toNat_shiftLeft_one _) _, ?_⟩⟩
  · exact (congrArg BitVec.toNat (s.getReg_setResultAndFlag_flag x _ _)).trans
      (flagByte_shiftedOutRight_toNat _)
  · exact (congrArg BitVec.toNat (s.getReg_setResultAndFlag_flag x _ _)).trans
      (flagByte_shiftedOutLeft_toNat _)

/-- Settles O40. -/
theorem loadIndexSetsI : Obligations.LoadIndexSetsI :=
  fun s nnn => ⟨_, exec_ldI s nnn, rfl, addrOperand_toNat nnn, fun _ => rfl⟩

/-- Settles O41: the port's byte, whatever it is, is the byte drawn. -/
theorem randomByteIsMaskedAndFree : Obligations.RandomByteIsMaskedAndFree := by
  refine fun s x nn => ⟨fun r hr => ⟨_, exec_rnd s x nn, ?_⟩, _, exec_rnd s x nn, rfl,
    fun q hq => ?_, s.afterDraw.getReg_setReg_same x _, fun _ => rfl⟩
  · rw [State.getReg_setReg_same, s.randomByte_of_port hr]
  · exact s.afterDraw.getReg_setReg_other x q _ hq

end Sys2Proof.Machine

/-! PROOFS. The display (spec 43_display.md R190 to R195): a draw that passes its checks flips a
pixel once for each set sprite bit that lands on it, whatever the edge. Where no two bits land on
one pixel this is the XOR of a picture: the sprite itself inside or under Clip, the sprite on the
torus under Wrap. -/

namespace Sys2Proof.Machine

/-- The sprite of R191 as pixels, in the order they are drawn. -/
def State.spritePixels (s : State) (ox oy n : Nat) : List SpritePixel :=
  rowPixels ox oy ((List.range n).map fun r => Memory.read s.mem (s.i.toNat + r))

/-- The framebuffer and the collision bit after the whole sprite. -/
def State.canvasAfter (s : State) (ox oy n : Nat) : Canvas :=
  drawPixels s.params (s.spritePixels ox oy n) ⟨s.gfx, false⟩

/-- The state a draw leaves when both its checks pass (R191, R193). -/
def State.drawn (s : State) (x y n : Nibble) : State :=
  { s with gfx := (s.canvasAfter (s.originX x) (s.originY y) n.toNat).gfx }.setFlag
    (s.canvasAfter (s.originX x) (s.originY y) n.toNat).collision

/-- How many set bits of the sprite land on a pixel, under any `P_DRAW_EDGE` (R192). -/
def State.landings (s : State) (ox oy n px py : Nat) : Nat :=
  (s.spritePixels ox oy n).countP (SpritePixel.hits s.params px py)

/-! ### The framebuffer as a table of pixels -/

/-- Framebuffers of the right size are equal when they agree on every pixel (R34). -/
theorem gfx_ext {p : Params} {g g' : List Bool} (hg : g.length = p.height * p.width)
    (hg' : g'.length = p.height * p.width)
    (h : ∀ x y, x < p.width → y < p.height → gfxPixel p g x y = gfxPixel p g' x y) : g = g' := by
  refine List.ext_getElem (hg.trans hg'.symm) fun k hk hk' => ?_
  have hlt : k < p.width * p.height := by rwa [hg, Nat.mul_comm] at hk
  have hw : 0 < p.width := Nat.pos_of_lt_mul_right hlt
  have hk_eq : pixelIndex p (k % p.width) (k / p.width) = k := Nat.div_add_mod' k p.width
  have hpix := h _ _ (Nat.mod_lt k hw) (Nat.div_lt_of_lt_mul hlt)
  simpa only [gfxPixel, hk_eq, List.getD_eq_getElem _ _ hk, List.getD_eq_getElem _ _ hk']
    using hpix

theorem exec_cls (s : State) : exec .cls s = .next { s with gfx := gfxClear s.params } := rfl

/-! ### The rule of a draw that passes its checks (R191, R193) -/

section
variable {s : State} {x y n : Nibble}

theorem drawPastEdge_eq_false {ox oy n : Nat}
    (hin : s.params.drawEdge = .fault → s.spriteInside ox oy n) :
    drawPastEdge s.params ox oy n = false := by
  refine Bool.eq_false_iff.2 fun hpast => ?_
  obtain ⟨hedge, hn, hout⟩ := (drawPastEdge_eq_true ..).1 hpast
  have := hin hedge hn
  omega

theorem exec_drw (hmem : s.spriteInMemory n.toNat)
    (hin : s.params.drawEdge = .fault → s.spriteInside (s.originX x) (s.originY y) n.toNat) :
    exec (.drw x y n) s = .next (s.drawn x y n) := by
  simp only [exec, execDrw, s.spriteBytes_eq n hmem, drawPastEdge_eq_false hin, drawRows_eq]
  rfl

theorem State.canvasAfter_length (s : State) (ox oy n : Nat) :
    (s.canvasAfter ox oy n).gfx.length = s.gfx.length := by
  rw [State.canvasAfter, State.spritePixels, ← drawRows_eq, drawRows_length]

/-- A draw writes VF and the framebuffer, and nothing else. -/
theorem State.drawn_frame (s : State) (x y n : Nibble) :
    s.onlyRegsAndGfx (s.drawn x y n) [0xF#4] :=
  ⟨rfl, fun r hr => State.getReg_setFlag_other _ r _ (List.ne_of_not_mem_cons hr), fun _ => rfl,
    s.canvasAfter_length _ _ _⟩

theorem State.drawn_flag_zero_or_one (s : State) (x y n : Nibble) :
    (s.drawn x y n).getReg 0xF#4 = 0 ∨ (s.drawn x y n).getReg 0xF#4 = 1 :=
  State.setFlag_zero_or_one _ _

/-- A sprite of no rows leaves the canvas as it was (R194). -/
theorem State.drawn_no_rows (s : State) (x y : Nibble) : s.drawn x y 0x0#4 = s.setFlag false := rfl

theorem flagByte_eq_one {f : Bool} : flagByte f = 1 ↔ f = true := by
  cases f <;> decide

theorem State.drawn_pixel (hwf : s.params.wf)
    (hg : s.gfx.length = s.params.height * s.params.width) {px : Nat} (hx : px < s.params.width)
    (py : Nat) : (s.drawn x y n).pixel px py = Bool.xor (s.pixel px py)
      (decide (s.landings (s.originX x) (s.originY y) n.toNat px py % 2 = 1)) := by
  obtain ⟨-, -, hw, hh, -⟩ := hwf
  exact (drawPixels_count s.params hw hh _ ⟨s.gfx, false⟩ hg).1 px py hx

theorem State.drawn_flag (hwf : s.params.wf)
    (hg : s.gfx.length = s.params.height * s.params.width) :
    (s.drawn x y n).getReg 0xF#4 = 1 ↔ ∃ px py, px < s.params.width ∧ py < s.params.height ∧
      (s.pixel px py = true ∧ 1 ≤ s.landings (s.originX x) (s.originY y) n.toNat px py ∨
        2 ≤ s.landings (s.originX x) (s.originY y) n.toNat px py) := by
  obtain ⟨-, -, hw, hh, -⟩ := hwf
  calc (s.drawn x y n).getReg 0xF#4 = 1
    _ ↔ (s.canvasAfter (s.originX x) (s.originY y) n.toNat).collision = true := by
      rw [← flagByte_eq_one, ← State.getReg_setFlag_flag]
      rfl
    _ ↔ _ := by
      rw [State.canvasAfter, (drawPixels_count s.params hw hh _ ⟨s.gfx, false⟩ hg).2]
      exact or_iff_right Bool.false_ne_true

/-- A draw whose landings are those of a picture XORs the picture into the framebuffer, and its
flag says whether a pixel went from on to off (R191, R193). -/
theorem State.drawn_of_picture {picture : Nat → Nat → Bool} (hwf : s.params.wf)
    (hg : s.gfx.length = s.params.height * s.params.width)
    (hpic : ∀ px py, px < s.params.width → py < s.params.height →
      s.landings (s.originX x) (s.originY y) n.toNat px py = (picture px py).toNat) :
    (∀ px py, px < s.params.width → py < s.params.height →
      (s.drawn x y n).pixel px py = Bool.xor (s.pixel px py) (picture px py)) ∧
    ((s.drawn x y n).getReg 0xF#4 = 0 ∨ (s.drawn x y n).getReg 0xF#4 = 1) ∧
    ((s.drawn x y n).getReg 0xF#4 = 1 ↔ ∃ px py, px < s.params.width ∧ py < s.params.height ∧
      s.pixel px py = true ∧ (s.drawn x y n).pixel px py = false) := by
  have hpixel (px py : Nat) (hx : px < s.params.width) (hy : py < s.params.height) :
      (s.drawn x y n).pixel px py = Bool.xor (s.pixel px py) (picture px py) := by
    rw [State.drawn_pixel hwf hg hx, hpic px py hx hy]
    cases picture px py <;> rfl
  refine ⟨hpixel, s.drawn_flag_zero_or_one x y n, (State.drawn_flag hwf hg).trans ?_⟩
  refine exists₂_congr fun px py => and_congr_right fun hx => and_congr_right fun hy => ?_
  rw [hpixel px py hx hy, hpic px py hx hy]
  cases picture px py <;> simp

end

/-! ### Where the pixels of a sprite land (R192) -/

section
variable {s : State} {ox oy n : Nat}

/-- The sprite's pixel in row r, column c is bit 7 - c of byte r (R195). -/
theorem State.mem_spritePixels {q : SpritePixel} :
    q ∈ s.spritePixels ox oy n ↔ ∃ r c, r < n ∧ c < 8 ∧
      q = ⟨ox + c, oy + r, (Memory.read s.mem (s.i.toNat + r)).getLsbD (7 - c)⟩ := by
  have hbyte (r : Nat) (b : Byte) :
      ((List.range n).map fun r => Memory.read s.mem (s.i.toNat + r))[r]? = some b ↔
        r < n ∧ Memory.read s.mem (s.i.toNat + r) = b := by
    simp [List.getElem?_eq_some_iff]
  simp only [State.spritePixels, mem_rowPixels, hbyte]
  constructor
  · rintro ⟨r, _, c, ⟨hr, rfl⟩, hc, rfl⟩
    exact ⟨r, 7 - c, hr, by omega, by rw [Nat.sub_sub_self (by omega)]⟩
  · rintro ⟨r, c, hr, hc, rfl⟩
    exact ⟨r, _, 7 - c, ⟨hr, rfl⟩, by omega, by rw [Nat.sub_sub_self (by omega)]⟩

/-- Sprite pixels of which no two land on one place hit it once or not at all. -/
theorem countP_hits_of_pairwise {p : Params} {x y : Nat} {qs : List SpritePixel}
    (hq : qs.Pairwise fun q q' =>
      ¬(q.target p = some (x, y) ∧ q'.target p = some (x, y))) :
    qs.countP (SpritePixel.hits p x y) = (qs.any (SpritePixel.hits p x y)).toNat := by
  induction qs with
  | nil => rfl
  | cons q qs ih =>
    obtain ⟨hq, hqs⟩ := List.pairwise_cons.1 hq
    rw [List.countP_cons, ih hqs, List.any_cons]
    cases hhit : q.hits p x y with
    | false => simp
    | true =>
      have htarget {q : SpritePixel} (h : q.hits p x y = true) : q.target p = some (x, y) :=
        of_decide_eq_true (Bool.and_eq_true_iff.1 h).2
      have hrest : qs.any (SpritePixel.hits p x y) = false :=
        List.any_eq_false.2 fun q' hm h => hq q' hm ⟨htarget hhit, htarget h⟩
      simp [hrest]

/-- A pixel on which the sprite lands at one offset (dx, dy) at most gets the sprite's bit there. -/
theorem State.landings_of_offset {px py dx dy : Nat} {covered : Prop} [Decidable covered]
    (h : ∀ c r, c < 8 → r < n →
      (spriteTarget s.params (ox + c) (oy + r) = some (px, py) ↔ covered ∧ c = dx ∧ r = dy)) :
    s.landings ox oy n px py = (decide (covered ∧ dx < 8 ∧ dy < n) &&
      (Memory.read s.mem (s.i.toNat + dy)).getLsbD (7 - dx)).toNat := by
  rw [State.landings, countP_hits_of_pairwise]
  · refine congrArg Bool.toNat (Bool.eq_iff_iff.2 ?_)
    simp only [List.any_eq_true, s.mem_spritePixels, SpritePixel.hits,
      Bool.and_eq_true, decide_eq_true_eq]
    constructor
    · rintro ⟨_, ⟨r, c, hr, hc, rfl⟩, hbit, htarget⟩
      obtain ⟨hcov, rfl, rfl⟩ := (h c r hc hr).1 htarget
      exact ⟨⟨hcov, hc, hr⟩, hbit⟩
    · rintro ⟨⟨hcov, hc, hr⟩, hbit⟩
      exact ⟨_, ⟨dy, dx, hr, hc, rfl⟩, hbit, (h dx dy hc hr).2 ⟨hcov, rfl, rfl⟩⟩
  · refine (rowPixels_pairwise ..).imp_of_mem fun {q q'} hq hq' hne ⟨htarget, htarget'⟩ => ?_
    obtain ⟨r, c, hr, hc, rfl⟩ := s.mem_spritePixels.1 hq
    obtain ⟨r', c', hr', hc', rfl⟩ := s.mem_spritePixels.1 hq'
    obtain ⟨-, rfl, rfl⟩ := (h c r hc hr).1 htarget
    obtain ⟨-, rfl, rfl⟩ := (h c' r' hc' hr').1 htarget'
    exact hne ⟨rfl, rfl⟩

/-- Inside, or past an edge under Clip, a sprite pixel lands at its own position or nowhere. -/
theorem State.spriteTarget_of_offset {c r px py : Nat}
    (hin : s.spriteInside ox oy n ∨ s.params.drawEdge = .clip) (hc : c < 8) (hr : r < n)
    (hx : px < s.params.width) (hy : py < s.params.height) :
    spriteTarget s.params (ox + c) (oy + r) = some (px, py) ↔ ox + c = px ∧ oy + r = py := by
  unfold spriteTarget
  split
  case isTrue => simp
  case isFalse hout =>
    rcases hin with hin | hclip
    · have := hin (by omega)
      omega
    · simp only [hclip]
      constructor
      · nofun
      · omega

/-- Inside, or under Clip, what lands on a pixel is the sprite's picture (R191, R192). -/
theorem State.landings_eq_spriteBit {px py : Nat}
    (hin : s.spriteInside ox oy n ∨ s.params.drawEdge = .clip)
    (hx : px < s.params.width) (hy : py < s.params.height) :
    s.landings ox oy n px py = (s.spriteBit ox oy n px py).toNat := by
  rw [State.landings_of_offset (covered := ox ≤ px ∧ oy ≤ py) (dx := px - ox) (dy := py - oy)]
  · rw [State.spriteBit]
    congr 3
    simp only [eq_iff_iff]
    omega
  · intro c r hc hr
    rw [State.spriteTarget_of_offset hin hc hr hx hy]
    omega

/-- On a circle of w places, the place x is reached from o by one distance below w. -/
theorem add_mod_eq_iff {o c w x : Nat} (ho : o < w) (hc : c < w) (hx : x < w) :
    (o + c) % w = x ↔ c = (x + w - o) % w := by
  have hmod {a : Nat} (ha : a < w + w) : a % w = if a < w then a else a - w := by
    split
    case isTrue hlt => exact Nat.mod_eq_of_lt hlt
    case isFalse hge => rw [Nat.mod_eq_sub_mod (by omega), Nat.mod_eq_of_lt (by omega)]
  rw [hmod (by omega), hmod (by omega)]
  split <;> split <;> omega

/-- On a torus at least as large as the sprite, what lands on a pixel is the wrapped picture. -/
theorem State.landings_eq_spriteBitWrapped {px py : Nat} (hwrap : s.params.drawEdge = .wrap)
    (hw : 8 ≤ s.params.width) (hh : n ≤ s.params.height) (hox : ox < s.params.width)
    (hoy : oy < s.params.height) (hx : px < s.params.width) (hy : py < s.params.height) :
    s.landings ox oy n px py = (s.spriteBitWrapped ox oy n px py).toNat := by
  rw [State.landings_of_offset (covered := True)
    (dx := (px + s.params.width - ox) % s.params.width)
    (dy := (py + s.params.height - oy) % s.params.height)]
  · simp only [true_and, State.spriteBitWrapped]
  · intro c r hc hr
    rw [spriteTarget_wrap _ hwrap, Option.some.injEq, Prod.mk.injEq, true_and,
      add_mod_eq_iff hox (hc.trans_le hw) hx, add_mod_eq_iff hoy (hr.trans_le hh) hy]

/-- Under Wrap on every framebuffer, `landings` is the specification's count (R192). -/
theorem State.landings_eq_spriteHits (hwrap : s.params.drawEdge = .wrap) (px py : Nat) :
    s.landings ox oy n px py = s.spriteHits ox oy n px py :=
  s.countP_rowPixels hwrap ox oy n px py

end

/-! ### The same sprite drawn twice -/

section
variable {s : State} {x y n : Nibble}

/-- A draw leaves everything the landings depend on: `i`, the memory and the parameters. -/
theorem State.drawn_landings (s : State) (x y n : Nibble) (ox oy m px py : Nat) :
    (s.drawn x y n).landings ox oy m px py = s.landings ox oy m px py := rfl

/-- A second draw at the same place flips every pixel as often again (R191). -/
theorem State.drawn_drawn_gfx (hwf : s.params.wf)
    (hg : s.gfx.length = s.params.height * s.params.width)
    (hx : (s.drawn x y n).originX x = s.originX x)
    (hy : (s.drawn x y n).originY y = s.originY y) :
    ((s.drawn x y n).drawn x y n).gfx = s.gfx := by
  have hg' : (s.drawn x y n).gfx.length = s.params.height * s.params.width :=
    (s.canvasAfter_length ..).trans hg
  refine gfx_ext ((State.canvasAfter_length ..).trans hg') hg fun px py hpx hpy => ?_
  calc ((s.drawn x y n).drawn x y n).pixel px py
    _ = Bool.xor ((s.drawn x y n).pixel px py) _ :=
      State.drawn_pixel (s := s.drawn x y n) hwf hg' hpx py
    _ = Bool.xor (Bool.xor (s.pixel px py) _) _ := by rw [State.drawn_pixel hwf hg hpx py]
    _ = s.pixel px py := by
      rw [hx, hy, State.drawn_landings, Bool.xor_assoc, Bool.xor_self, Bool.xor_false]

/-- The second draw's flag: a pixel that was off at first is hit once, and so is on when the
second draw hits it, or a pixel is hit at least twice by either draw. -/
theorem State.drawn_drawn_flag (hwf : s.params.wf)
    (hg : s.gfx.length = s.params.height * s.params.width)
    (hx : (s.drawn x y n).originX x = s.originX x)
    (hy : (s.drawn x y n).originY y = s.originY y) :
    ((s.drawn x y n).drawn x y n).getReg 0xF#4 = 1 ↔
      ∃ px py, px < s.params.width ∧ py < s.params.height ∧
        (s.landings (s.originX x) (s.originY y) n.toNat px py = 1 ∧ s.pixel px py = false ∨
          2 ≤ s.landings (s.originX x) (s.originY y) n.toNat px py) := by
  have hg' : (s.drawn x y n).gfx.length = s.params.height * s.params.width :=
    (s.canvasAfter_length ..).trans hg
  refine (State.drawn_flag (s := s.drawn x y n) hwf hg').trans ?_
  refine exists₂_congr fun px py => and_congr_right fun hpx => and_congr_right fun _ => ?_
  rw [hx, hy, State.drawn_landings, State.drawn_pixel hwf hg hpx py]
  generalize s.landings (s.originX x) (s.originY y) n.toNat px py = k
  rcases k with _ | _ | k <;> simp

end

/-! ### The statements -/

/-- Settles O44. -/
theorem clearTurnsEveryPixelOff : Obligations.ClearTurnsEveryPixelOff := by
  intro s hg
  refine ⟨_, exec_cls s, rfl, (gfxClear_length _).trans hg.symm, gfxPixel_gfxClear _,
    fun _ => rfl, fun hoff => ?_⟩
  have hclear : gfxClear s.params = s.gfx := gfx_ext (gfxClear_length _) hg fun x y hx hy =>
    (gfxPixel_gfxClear _ x y).trans (hoff x y hx hy).symm
  rw [hclear]

/-- Settles O48. -/
theorem drawCompletes : Obligations.DrawCompletes := fun s x y n hmem hin =>
  ⟨_, exec_drw hmem hin, s.drawn_frame x y n, s.drawn_flag_zero_or_one x y n⟩

/-- Settles O50: with no rows there is no byte and no position for a check to refuse. -/
theorem drawOfNoRowsClearsVF : Obligations.DrawOfNoRowsClearsVF := by
  intro s x y
  have hdraw : exec (.drw x y 0x0#4) s = .next (s.drawn x y 0x0#4) :=
    exec_drw (fun r hr => absurd hr r.not_lt_zero) fun _ hn => absurd hn (Nat.lt_irrefl 0)
  rw [s.drawn_no_rows] at hdraw
  exact ⟨_, hdraw, s.onlyRegs_setReg flagReg _, s.getReg_setFlag_flag false⟩

/-- Settles O45: what lands is the sprite's picture. -/
theorem drawXorsTheSprite : Obligations.DrawXorsTheSprite := by
  rintro s x y n _ _ hwf hg rfl rfl hmem hin
  refine ⟨_, exec_drw hmem fun hfault => hin.resolve_right (by simp [hfault]),
    s.drawn_frame x y n, ?_⟩
  exact State.drawn_of_picture hwf hg fun px py => State.landings_eq_spriteBit hin

/-- Settles O46: what lands is the sprite's picture on the torus. -/
theorem drawWrapsOnTheTorus : Obligations.DrawWrapsOnTheTorus := by
  rintro s x y n _ _ hwf hwrap hw hh hg rfl rfl hmem
  have ⟨_, _, hw_pos, hh_pos, _⟩ := hwf
  refine ⟨_, exec_drw hmem (by simp [hwrap]), s.drawn_frame x y n, ?_⟩
  exact State.drawn_of_picture hwf hg fun px py =>
    State.landings_eq_spriteBitWrapped hwrap hw hh (Nat.mod_lt _ hw_pos) (Nat.mod_lt _ hh_pos)

/-- Settles O47. -/
theorem drawWrapsOntoSmallFramebuffers : Obligations.DrawWrapsOntoSmallFramebuffers := by
  rintro s x y n _ _ hwf hwrap hg rfl rfl hmem
  simp only [← State.landings_eq_spriteHits hwrap]
  exact ⟨_, exec_drw hmem (by simp [hwrap]), s.drawn_frame x y n,
    fun px py hx _ => State.drawn_pixel hwf hg hx py, s.drawn_flag_zero_or_one x y n,
    State.drawn_flag hwf hg⟩

/-- Settles O51: the place being the same, the landings of both draws are the same. -/
theorem drawingTwiceRestoresTheFramebuffer : Obligations.DrawingTwiceRestoresTheFramebuffer := by
  intro s x y n ox oy hwf hg hox hoy hmem hin
  obtain rfl : ox = s.originX x := hox
  obtain rfl : oy = s.originY y := hoy
  obtain ⟨-, hregs, -, -⟩ := s.drawn_frame x y n
  refine ⟨_, exec_drw hmem hin, fun hx => hregs x (by simpa using hx),
    fun hy => hregs y (by simpa using hy), fun hx hy => ?_⟩
  replace hx : (s.drawn x y n).originX x = s.originX x := hx
  replace hy : (s.drawn x y n).originY y = s.originY y := hy
  have hflag := State.drawn_drawn_flag hwf hg hx hy
  refine ⟨_, exec_drw (s := s.drawn x y n) hmem (by rw [hx, hy]; exact hin),
    State.drawn_drawn_gfx hwf hg hx hy, fun hinside => hflag.trans ?_, fun hwrap => ?_⟩
  · refine exists₂_congr fun px py => and_congr_right fun hpx => and_congr_right fun hpy => ?_
    rw [State.landings_eq_spriteBit hinside hpx hpy]
    cases s.spriteBit (s.originX x) (s.originY y) n.toNat px py <;> simp
  · simpa only [State.landings_eq_spriteHits hwrap] using hflag

end Sys2Proof.Machine

/-! PROOFS. The timer transfers and the FX1E option (spec 44_timers.md R210 to R213). -/

namespace Sys2Proof.Machine

section
variable (s : State) (x : Nibble)

/-! ### A rule per instruction -/

theorem exec_ldVxDt : exec (.ldVxDt x) s = .next (s.setReg x s.dt) := rfl

theorem exec_ldDtVx : exec (.ldDtVx x) s = .next (s.setDt (s.getReg x)) := rfl

theorem exec_ldStVx : exec (.ldStVx x) s = .next (s.setSt (s.getReg x)) := rfl

theorem exec_unsettledFx1e_of_addI (hp : s.params.opFx1e = .addI) :
    exec (.unsettledFx1e x) s = .next (s.setI (s.i + (s.getReg x).setWidth 16)) := by
  simp only [exec, execUnsettledFx1e, hp, addI]

theorem exec_unsettledFx1e_of_unknown (hp : s.params.opFx1e = .unknown) :
    exec (.unsettledFx1e x) s = .next (s.warn (encode (.unsettledFx1e x))) := by
  simp only [exec, execUnsettledFx1e, hp, warnUnknown]

end

/-- A byte added to an address is the sum of both modulo 2^16 (R213). -/
theorem toNat_add_byte (a : Word) (b : Byte) :
    (a + b.setWidth 16).toNat = (a.toNat + b.toNat) % 65536 := by
  rw [BitVec.toNat_add, BitVec.toNat_setWidth_of_le (by decide)]

/-! ### The statements -/

/-- Settles O26. -/
theorem opFx1eFollowsItsParameter : Obligations.OpFx1eFollowsItsParameter :=
  fun s x => ⟨
    fun hp => ⟨_, exec_unsettledFx1e_of_addI s x hp, rfl, toNat_add_byte .., fun _ => rfl⟩,
    exec_unsettledFx1e_of_unknown s x,
    fun hp => exec_unsettledFx1e_of_unsettled hp x⟩

/-- Settles O52. -/
theorem timerTransfers : Obligations.TimerTransfers :=
  fun s x => ⟨⟨_, exec_ldVxDt s x, s.onlyRegs_setReg x _, s.getReg_setReg_same x _⟩,
    exec_ldDtVx s x, exec_ldStVx s x⟩

end Sys2Proof.Machine

/-! PROOFS. Errors and the host (spec 60_exceptions.md R220 to R233): what a cycle of a running core
can answer, that a halted core stays as it is, and what the host's moves keep. -/

namespace Sys2Proof.Machine

/-- The state a cycle ends in that raises `code` (R221): `pc` has advanced, unless the fetch itself
failed. -/
def State.failedCycle (s : State) (code : FaultCode) : State :=
  { s with
    pc := if code = .fetchOutOfBounds then s.pc else s.pc + 2
    halted := true, fault := code, result := some (.fatal code) }

/-- `t` shows the outcome Ok of a cycle from `s`: the error status is as it was (R100, R229). -/
def State.CompletedFrom (s t : State) : Prop :=
  t.result = some .ok ∧ t.halted = s.halted ∧ t.fault = s.fault

/-! ### The outcomes of a cycle (R229) -/

section
variable {s t : State}

theorem State.fatal_eq_failedCycle : s.fatal .fetchOutOfBounds = s.failedCycle .fetchOutOfBounds :=
  rfl

theorem State.advance_fatal_eq_failedCycle {code : FaultCode} (h : code ≠ .fetchOutOfBounds) :
    s.advance.fatal code = s.failedCycle code := by
  simp only [State.failedCycle, if_neg h]
  rfl

/-- A cycle of a running core always answers: it fails, warns or completes. -/
theorem step_outcome (hs : s.running) : ∃ t, step s = .next t ∧
    ((∃ code, code ≠ .none ∧ t = s.failedCycle code) ∨ (∃ w, t = s.advance.warn w) ∨
      s.CompletedFrom t) := by
  rcases step_of_running s hs with ⟨-, hstep⟩ | ⟨-, hstep⟩
  · exact ⟨_, hstep, .inl ⟨_, by decide, State.fatal_eq_failedCycle⟩⟩
  · rw [hstep]
    rcases exec_cases (decode s.params s.compat _) s.advance with
      ⟨code, hne, hfetch, hexec⟩ | ⟨w, hexec⟩ | ⟨t, hexec, hframe⟩
    · exact ⟨_, hexec, .inl ⟨code, hne, State.advance_fatal_eq_failedCycle hfetch⟩⟩
    · exact ⟨_, hexec, .inr (.inl ⟨w, rfl⟩)⟩
    · refine ⟨t, hexec, .inr (.inr ?_)⟩
      rw [hframe]
      exact ⟨rfl, rfl, rfl⟩

/-- With legal parameters the model never stops: a core idles when halted and answers when not. -/
theorem exists_step_next (hp : s.params.wf) : ∃ t, step s = .next t := by
  cases hh : s.halted with
  | true => exact ⟨_, step_of_halted s hp hh⟩
  | false =>
    obtain ⟨t, hstep, -⟩ := step_outcome ⟨hp, hh⟩
    exact ⟨t, hstep⟩

/-- No number of step requests changes a halted core, its `result` aside (R108, R221). -/
theorem run_of_halted (hp : s.params.wf) (hh : s.halted = true) (n : Nat) :
    ∃ u, Host.Core.run Sys2Proof.core n s = .next u ∧ u = { s with result := u.result } := by
  induction n generalizing s with
  | zero => exact ⟨s, rfl, rfl⟩
  | succ n ih =>
    rw [core_run_succ s s.idle n (step_of_halted s hp hh)]
    exact ih (s := s.idle) hp hh

end

/-- Settles O9. -/
theorem everyCycleReportsOneOutcome : Obligations.EveryCycleReportsOneOutcome := by
  intro s hs
  have ⟨_, hrun⟩ := hs
  obtain ⟨t, hstep, houtcome⟩ := step_outcome hs
  refine ⟨t, hstep, ?_⟩
  rcases houtcome with ⟨code, hne, rfl⟩ | ⟨w, rfl⟩ | ⟨hresult, hhalted, hfault⟩
  · exact .inr (.inr ⟨code, hne, rfl, rfl, rfl⟩)
  · exact .inr (.inl ⟨w, rfl, hrun, rfl⟩)
  · exact .inl ⟨hresult, hhalted.trans hrun, hfault⟩

/-- Settles O10: of the three outcomes only the failure leaves a running core halted. -/
theorem fatalErrorIsPrecise : Obligations.FatalErrorIsPrecise := by
  intro s t hs h hhalt
  have ⟨hp, hrun⟩ := hs
  obtain ⟨_, hstep, houtcome⟩ := step_outcome hs
  cases hstep.symm.trans h
  rcases houtcome with ⟨code, hne, rfl⟩ | ⟨w, rfl⟩ | ⟨-, hkept, -⟩
  · exact ⟨⟨code, hne, rfl⟩, run_of_halted (s := s.failedCycle code) hp hhalt⟩
  · exact absurd hhalt (by simp [hrun])
  · exact absurd hhalt (by simp [hkept, hrun])

/-! ### The invariant along every sequence of moves (R232, R233, R258) -/

/-- The host's moves within its duties keep the invariant and the parameters. -/
theorem applyHost_keeps_inv {h : HostMove} {s : State} (hs : s.Inv) (hl : h.legal s.params) :
    (applyHost h s).Inv ∧ (applyHost h s).params = s.params := by
  cases h with
  | reset image c =>
    obtain ⟨hreset, -⟩ := resetStateMeetsTheInvariant
    obtain ⟨himage, hrange⟩ := hl
    exact ⟨hreset s.params image c s.draws hs.params himage hrange, rfl⟩
  | writeDt | writeSt | supplyRandom => exact ⟨{ hs with }, rfl⟩

/-- A move answers, and keeps the invariant and the parameters. -/
theorem applyMove_keeps_inv {m : Move} {s : State} (hs : s.Inv)
    (hl : ∀ h, m = .host h → h.legal s.params) :
    ∃ t, applyMove m s = .next t ∧ t.Inv ∧ t.params = s.params := by
  cases m with
  | cycle =>
    obtain ⟨t, hstep⟩ := exists_step_next hs.params
    obtain ⟨-, hparams, -⟩ := step_keeps hstep
    exact ⟨t, hstep, everyStepKeepsTheInvariant s t hs hstep, hparams⟩
  | host h => exact ⟨_, rfl, applyHost_keeps_inv hs (hl h rfl)⟩

/-- Settles O4, by induction on the sequence: the parameters staying, the moves after the first
are legal in the state it leaves. -/
theorem everyMoveSequenceKeepsTheInvariant : Obligations.EveryMoveSequenceKeepsTheInvariant := by
  intro ms
  induction ms with
  | nil => exact fun s hs _ => ⟨s, rfl, hs, rfl⟩
  | cons m ms ih =>
    intro s hs hl
    obtain ⟨t, hmove, ht, hp⟩ := applyMove_keeps_inv hs fun h hm => hl h (hm ▸ List.mem_cons_self)
    obtain ⟨u, hmoves, hu, hpu⟩ := ih t ht fun h hm => hp ▸ hl h (List.mem_cons_of_mem m hm)
    exact ⟨u, applyMoves_cons_eq_next.2 ⟨t, hmove, hmoves⟩, hu, hpu.trans hp⟩

/-! ### The random byte on the port (R233, R164) -/

/-- The byte `b` is on the port as long as the counter of draws stands at `d`, below which it
cannot fall. -/
def State.HoldsByteUntilDraw (b : Byte) (d : Nat) (s : State) : Prop :=
  d < s.draws ∨ (s.draws = d ∧ s.randPort = some b)

/-- A step leaves the port and the counter alone, or draws and counts. -/
theorem step_draws {s t : State} (h : step s = .next t) :
    (t.randPort = s.randPort ∧ t.draws = s.draws) ∨ t.draws = s.draws + 1 := by
  rcases step_cases s t h with ⟨-, rfl⟩ | ⟨-, -, rfl⟩ | ⟨-, -, hexec⟩
  · exact .inl ⟨rfl, rfl⟩
  · exact .inl ⟨rfl, rfl⟩
  · rcases exec_random hexec with hkept | ⟨x, nn, hrnd⟩
    · exact .inl hkept
    · rw [hrnd, exec_rnd] at hexec
      cases hexec
      exact .inr rfl

/-- Only a draw, a reset and another supplied byte take a byte off the port. -/
theorem applyMove_keeps_byte {b : Byte} {d : Nat} {m : Move}
    (hm : m.isReset = false ∧ ∀ c, m ≠ .host (.supplyRandom c)) (s t : State)
    (hs : s.HoldsByteUntilDraw b d) (h : applyMove m s = .next t) :
    t.HoldsByteUntilDraw b d := by
  obtain ⟨hreset, hsupply⟩ := hm
  rcases m with _ | ⟨c | c | c | ⟨image, c⟩⟩
  case cycle =>
    rcases step_draws h with ⟨hport, hdraws⟩ | hdraws
    · rwa [State.HoldsByteUntilDraw, hport, hdraws]
    · refine .inl ?_
      rcases hs with hlt | ⟨heq, -⟩ <;> omega
  case host.supplyRandom => exact absurd rfl (hsupply c)
  case host.reset => cases hreset
  all_goals
    cases h
    exact hs

/-- Settles O59: the counter being as before, the byte supplied is still on the port. -/
theorem hostSuppliesTheNextRandomByte : Obligations.HostSuppliesTheNextRandomByte := by
  intro s t b hi lo ms x nn hms h hdraws hrun hf hdec
  obtain ⟨_, hsupply, hrest⟩ := applyMoves_cons_eq_next.1 h
  cases hsupply
  have hfirst : (applyHost (.supplyRandom b) s).HoldsByteUntilDraw b s.draws := .inr ⟨rfl, rfl⟩
  have hheld : t.HoldsByteUntilDraw b s.draws :=
    applyMoves_invariant (fun m hm => applyMove_keeps_byte (hms m hm)) hfirst hrest
  obtain ⟨-, hport⟩ := hheld.resolve_left (by omega)
  have hbyte : t.advance.randomByte = b := t.advance.randomByte_of_port hport
  refine ⟨t.advance.afterDraw.setReg x (b &&& nn), ?_, State.getReg_setReg_same ..⟩
  rw [step_of_fetches hrun hf, hdec, exec_rnd, hbyte]

/-! ### The checks of a draw, in their order (R191, R230) -/

section
variable {s : State} {x y n : Nibble}

theorem exec_drw_of_past_memory (h : ¬ s.spriteInMemory n.toNat) :
    exec (.drw x y n) s = .next (s.fatal .memReadOutOfBounds) := by
  have hnone : s.spriteBytes n = none :=
    s.spriteBytes_eq_none n (by simpa [State.spriteInMemory] using h)
  simp only [exec, execDrw, hnone, raiseFatal]

theorem exec_drw_of_past_edge (hmem : s.spriteInMemory n.toNat)
    (h : drawPastEdge s.params (s.originX x) (s.originY y) n.toNat = true) :
    exec (.drw x y n) s = .next (s.fatal .drawOutOfBounds) := by
  simp only [exec, execDrw, s.spriteBytes_eq n hmem, h, if_true, raiseFatal]

end

/-- Settles O49. -/
theorem drawChecksMemoryBeforeTheEdge : Obligations.DrawChecksMemoryBeforeTheEdge := by
  rintro s x y n _ _ rfl rfl
  exact ⟨exec_drw_of_past_memory, fun hmem hedge hn hout =>
    exec_drw_of_past_edge hmem ((drawPastEdge_eq_true ..).2 ⟨hedge, hn, hout⟩)⟩

/-! ### The host's timer writes (R232) -/

theorem applyMove_writeDt (b : Byte) (s : State) :
    applyMove (.host (.writeDt b)) s = .next (s.setDt b) := rfl

theorem applyMove_writeSt (b : Byte) (s : State) :
    applyMove (.host (.writeSt b)) s = .next (s.setSt b) := rfl

/-- Settles O54. -/
theorem hostTimerActionIsSeenByFX07 : Obligations.HostTimerActionIsSeenByFX07 :=
  fun s b x => ⟨applyMove_writeDt b s, applyMove_writeSt b s, _, _, applyMove_writeDt b s,
    exec_ldVxDt (s.setDt b) x, (s.setDt b).getReg_setReg_same x b⟩

end Sys2Proof.Machine

/-! PROOFS. Reset and the loader (spec 70_reset_and_hazards.md R250, R251): a loaded word is the
one the next cycle runs, and a host reset restarts the core from its image. -/

namespace Sys2Proof.Machine

/-! ### The loaded word (R251, R52, R100) -/

section
variable {s : State} (w : Word)

theorem State.withFetchWord_mem_word : (s.withFetchWord 16 w.toNat).mem =
    Memory.writeBytes s.mem s.pc.toNat [highByte w, lowByte w] := by
  rw [State.withFetchWord, tableWord_toNat]

/-- The loader leaves the word's two bytes where the fetch reads them, big-endian (R52, R101). -/
theorem State.withFetchWord_fetches (hmem : Memory.wf s.mem)
    (hlt : s.pc.toNat + 1 < s.params.memSize) :
    (s.withFetchWord 16 w.toNat).fetches (highByte w) (lowByte w) := by
  have hread := Memory.read_writeBytes s.mem s.pc.toNat [highByte w, lowByte w] hmem
  rw [State.fetches_iff, State.withFetchWord_mem_word]
  exact ⟨hlt, hread 0 Nat.zero_lt_two, hread 1 Nat.one_lt_two⟩

end

/-- Settles O7: the loaded state fetches the word's two bytes, which put together are the word. -/
theorem loadedWordRunsNext : Obligations.LoadedWordRunsNext := by
  intro s w hs hmem hlt
  have hword : highByte w ++ lowByte w = w := wordOfBytes_high_low w
  calc step (s.withFetchWord 16 w.toNat)
    _ = exec (decode s.params s.compat (highByte w ++ lowByte w))
          (s.withFetchWord 16 w.toNat).advance :=
      step_of_fetches hs (s.withFetchWord_fetches w hmem hlt)
    _ = exec (decode s.params s.compat w) (s.withFetchWord 16 w.toNat).advance := by rw [hword]

/-! ### The host's reset (R250, R223) -/

section
variable {p : Params} (image : Memory) (c : Compat) (draws : Nat)

theorem applyMove_reset (s : State) : applyMove (.host (.reset image c)) s =
    .next (State.resetWith s.params image c s.draws) := rfl

theorem State.resetWith_running (hp : p.wf) : (State.resetWith p image c draws).running :=
  ⟨hp, rfl⟩

/-- Legal parameters put the first word's two bytes in memory (R12), so the fetch finds them. -/
theorem State.resetWith_fetches (hp : p.wf) : (State.resetWith p image c draws).fetches
    (Memory.read image p.romBase.toNat) (Memory.read image (p.romBase.toNat + 1)) :=
  have ⟨_, hrom, _⟩ := hp
  State.fetches_read _ hrom

end

/-- Settles O60: the reset state is a running core whose fetch reads the image at `P_ROM_BASE`. -/
theorem hostResetRestartsTheCore : Obligations.HostResetRestartsTheCore := by
  refine fun s image c => ⟨_, applyMove_reset image c s, rfl, fun hp => ?_⟩
  have hrun := State.resetWith_running image c s.draws hp
  have hf := State.resetWith_fetches image c s.draws hp
  exact ⟨hrun, _, _, hf, rfl, rfl, step_of_fetches hrun hf⟩

end Sys2Proof.Machine
